-- ==== Sys2Proof/Word.lean ====
section
/-! DEFINITION. The word types of the BITM codec block.
Rules R6, R7, R9: a packed word, a dimension and a 32-bit register are unsigned 32-bit values, a display pixel and a
header byte are unsigned 8-bit values, a word count is an unsigned 64-bit value. Nothing is ever sign-extended. -/

namespace Sys2Proof

/-- A header byte or a display pixel (R7, R31, R33). -/
abbrev Byte := BitVec 8

/-- A packed word, a dimension, a 32-bit interface register or a command word (R6, R24, R60). -/
abbrev Word := BitVec 32

/-- A 64-bit interface register: `WORD_AVAIL` and `WORD_COUNT` (R24). -/
abbrev DWord := BitVec 64

end Sys2Proof
end

