-- ==== Sys2Proof/Syntax.lean ====
section
/-! DEFINITION. The operations of the block, one constructor per row of spec/opcode_table.json (R2, R61).
No operation has an operand field: every operand sits in an interface register or a buffer (R65). -/

namespace Sys2Proof

/-- The four operations (R61); R62 and R73 say there is no other. -/
inductive Instr where
  /-- `HDR.PARSE`: validate and read the 12-byte header (R81). -/
  | hdrParse
  /-- `HDR.WRITE`: construct the 12-byte header (R88). -/
  | hdrWrite
  /-- `UNPACK`: packed words to pixel grid (R101). -/
  | unpack
  /-- `PACK`: pixel grid to packed words (R121). -/
  | pack
  deriving DecidableEq, Repr

end Sys2Proof
end

