-- ==== Sys2Proof/Decode.lean ====
section
/-! DEFINITION. The command word (R60 to R64): decoder, encoder, and the reading of an opcode-table word. -/

namespace Sys2Proof

/-- Why a command word selects no operation; R62 and R63 give the one reason. -/
inductive DecodeError where
  /-- One of bits `[31:2]` is set (R63). -/
  | reservedBits
  deriving DecidableEq, Repr

/-- `CMD[1:0]`, the field `OP` (R25, R60). -/
def opField (c : Word) : BitVec 2 := c.extractLsb' 0 2

/-- `CMD[31:2]`, reserved (R25, R60). -/
def reservedField (c : Word) : BitVec 30 := c.extractLsb' 2 30

/-- The opcode map of R61; every value of `OP` selects an operation (R62). -/
def decodeOp (op : BitVec 2) : Instr :=
  if op = 0b00#2 then .hdrParse
  else if op = 0b01#2 then .hdrWrite
  else if op = 0b10#2 then .unpack
  else .pack

/-- The decoder of R63, total on every 32-bit word. -/
def decode (c : Word) : Except DecodeError Instr :=
  if reservedField c ≠ 0 then .error .reservedBits else .ok (decodeOp (opField c))

/-- The command word of an operation, from the column "command word" of R61. -/
def encode (i : Instr) : Word :=
  match i with
  | .hdrParse => 0x00000000#32
  | .hdrWrite => 0x00000001#32
  | .unpack => 0x00000002#32
  | .pack => 0x00000003#32

/-- What the decoder reads from an instruction of `nbits` bits whose bits are `w` (every bit above them zero). The command
word is one 32-bit bus write, so its bits are already in the table's numbering (R60, R64). -/
def decodeTableWord (nbits w : Nat) : Option Instr :=
  if w % 2 ^ nbits < 2 ^ 32 then
    match decode (BitVec.ofNat 32 (w % 2 ^ nbits)) with
    | .ok i => some i
    | .error _ => none
  else none

end Sys2Proof
end

