-- ==== Sys2Proof/Config.lean ====
section
/-! DEFINITION. The implementation parameters of the block (R6, R8).
The parameters R8 leaves open and that a model takes as arguments are plain data (`Caps`), carried by the state and
never changed by a step, so every statement over all states is a statement over all capacities.
`HOST_BUS_MAP` has no effect at transaction level: the model names registers by number (R24) and buffer cells by index. -/

namespace Sys2Proof.Config

/-- The two open capacities of R8; `none` is "unbounded". -/
structure Caps where
  /-- `PIXEL_CAP`: how many pixel bytes `GMEM` holds. -/
  pixelCap : Option Nat
  /-- `WORD_CAP`: how many 32-bit words `WMEM` holds. -/
  wordCap : Option Nat
  deriving DecidableEq, Repr

/-- Both capacities unbounded: then "the block is the source's codec exactly" (R8). -/
def unbounded : Caps := { pixelCap := none, wordCap := none }

/-- `HEADER_BYTES` of R6, the size of `HBUF` (R31). -/
def headerBytes : Nat := 12

end Sys2Proof.Config
end

