-- ==== Sys2Proof/Machine/Forms.lean ====
section
/-! DEFINITION. The names of the block's registers, buffers and status codes, and the host's side of the interface:
the forms of a host program (R71, R140, R144) as plain data. -/

namespace Sys2Proof.Machine

/-- The seven interface registers of R24, by name. -/
inductive Reg where
  | cmd | status | width | height | hdrLen | wordAvail | wordCount
  deriving DecidableEq, Repr

/-- The three buffers of R31 to R33. -/
inductive Buffer where
  | hbuf | wmem | gmem
  deriving DecidableEq, Repr

/-- The outcomes `STATUS.CODE` names (R66). -/
inductive StatusCode where
  | ok | invalidMagic | truncated | capacity | badCommand | none
  deriving DecidableEq, Repr

/-- A value on its way to or from the host, at the exact width of the cell it belongs to (R24, R35, C7). -/
inductive Datum where
  | d8 (v : BitVec 8)
  | d32 (v : BitVec 32)
  | d64 (v : BitVec 64)
  deriving DecidableEq, Repr

/-- What a stream sequence ends with on the host's side (R140, R144). -/
inductive HostResult where
  /-- `(WIDTH, HEIGHT, GMEM[0 .. N-1])`, handed to the raster collaborator (R140). -/
  | grid (w h : Word) (pixels : List Byte)
  /-- The bytes of the output stream (R144). -/
  | stream (bytes : List Byte)
  /-- The status code surfaced to the caller (R140, R144). -/
  | failed (code : BitVec 3)
  deriving DecidableEq, Repr

/-- One line of a host program.
The first ten are the forms of R71 (the four mnemonics and `CMD.RAW imm32` are all `wrReg 0 (.d32 imm32)`, a write of the
command word to register 0; buffer reads are the host access that R31 to R33 allow); `reset` is the block's reset input
(R170, R172, R73); the last four are the host steps of the stream sequences R140 and R144. -/
inductive HostForm where
  /-- `wr REG, imm`, the register by its number (R24). -/
  | wrReg (n : Nat) (d : Datum)
  /-- `rd REG`. -/
  | rdReg (n : Nat)
  /-- `wr HBUF[k], b0, b1, ...`. -/
  | wrHbuf (k : Nat) (bs : List Byte)
  /-- `wr WMEM[k], w0, w1, ...`. -/
  | wrWmem (k : Nat) (ws : List Word)
  /-- `wr GMEM[a], p0, p1, ...`. -/
  | wrGmem (a : Nat) (ps : List Byte)
  /-- The host reads `HBUF[k]` (R31). -/
  | rdHbuf (k : Nat)
  /-- The host reads `WMEM[k]` (R32). -/
  | rdWmem (k : Nat)
  /-- The host reads `GMEM[a]` (R33). -/
  | rdGmem (a : Nat)
  /-- `bne.status label`; a label is the position of a line in the program. -/
  | bneStatus (label : Nat)
  /-- `halt`. -/
  | halt
  /-- The reset input of the block, applied between operations (R172). -/
  | reset
  /-- Lines 6 to 10 of `DECODE.STREAM s` (R140): read `WORD_COUNT`, load the words of `s`, write `WORD_AVAIL`; where the
  words do not fit, stop with `CAPACITY` at the line `stop`. -/
  | loadWords (s : List Byte) (stop : Nat)
  /-- `hand (WIDTH, HEIGHT, GMEM[0 .. N-1]) to save_monochrome_raster` (R140). -/
  | handGrid
  /-- `out <- HBUF[0..11] ++ LE32_BYTES(WMEM[0]) ++ ...; write out to the output path` (R144). -/
  | emitStream
  /-- `surface (input path, STATUS.CODE) to the caller` (R140, R144). -/
  | surface
  deriving DecidableEq, Repr

/-- A write of the command word `c` to `CMD`: `HDR.PARSE`, `HDR.WRITE`, `UNPACK`, `PACK` and `CMD.RAW` of R71. -/
abbrev HostForm.cmd (c : Word) : HostForm := .wrReg 0 (.d32 c)

end Sys2Proof.Machine
end

