-- ==== Sys2Proof/Machine/State.lean ====
section
/-! DEFINITION. The state of the machine as plain data, its reset value, and the reasons a step can stop. -/

namespace Sys2Proof.Machine

open Sys2Proof

/-- A buffer: its cells that hold a value, by index, in ONE canonical form (indices strictly rising, `Memory.wf`).
An index that is not listed holds no value (R34, R170), so no entry can equal what an unlisted index reads as.
`Memory Byte` is a list of `Host.Cell`; the element of `WMEM` is a whole word (R40, R51). -/
abbrev Memory (α : Type) := List (Nat × α)

/-- Everything the spec gives the block (R20), and beside it the open parameters (R8) and the host's program, which is the
only agent that acts on the block (R22, R56).
A register that "holds no value" (R34) is `none`. `CMD` (R25) holds nothing between writes and has no field: it reads 0. -/
structure State where
  /-- `PIXEL_CAP`, `WORD_CAP` (R8): fixed for a machine. -/
  caps : Config.Caps
  /-- Register 1, `STATUS` (R24, R26). -/
  status : Word
  /-- Register 2, `WIDTH` (R24, R27). -/
  width : Option Word
  /-- Register 3, `HEIGHT` (R24, R27). -/
  height : Option Word
  /-- Register 4, `HDR_LEN` (R24, R28). -/
  hdrLen : Option Word
  /-- Register 5, `WORD_AVAIL` (R24, R29). -/
  wordAvail : Option DWord
  /-- Register 6, `WORD_COUNT` (R24, R30). -/
  wordCount : Option DWord
  /-- `HBUF`, bytes 0 to 11 (R31). -/
  hbuf : Memory Byte
  /-- `WMEM`, words 0 to `WORD_CAP` - 1 (R32). -/
  wmem : Memory Word
  /-- `GMEM`, pixels 0 to `PIXEL_CAP` - 1 (R33). -/
  gmem : Memory Byte
  /-- The host's program (R71); the block itself has none (R22). -/
  hostProg : List HostForm
  /-- The line of the host's program that comes next. -/
  hostPos : Nat
  /-- What the host has read so far (`rd`), newest first. -/
  hostReads : List Datum
  /-- What the host's last stream sequence ended with. -/
  hostResult : Option HostResult
  deriving DecidableEq, Repr

/-- The model faults of R158 (and of R35 for a host read): a cell that holds no value was read. -/
inductive Fault where
  /-- `UNSET_OPERAND(reg)`, the spec's own outcome where the register holds no value (R34, R158; D22, U13). Raised by an
  operation that reads the register (R81, R88, R101, R121), by `rd` (R35) and by the host steps of the stream sequences.
  Safe: the hardware reads whatever the register holds, and the model stops instead. -/
  | unsetOperand (r : Reg)
  /-- `UNSET_DATA(buffer, k)`. Raised by `HDR.PARSE` (`HBUF`), `UNPACK` (`WMEM`), `PACK` (`GMEM`) (R158) and by a host read
  of a buffer element. Safe: the hardware reads whatever the cell holds, and the model stops instead. -/
  | unsetData (b : Buffer) (k : Nat)
  deriving DecidableEq, Repr

/-- What the model gives no meaning to (R159). -/
inductive Refusal where
  /-- An instruction with no meaning yet, by its mnemonic. Raised by no arm of `exec`. Safe: the run stops. -/
  | notModelled (mnemonic : String)
  /-- A host read or write of a register number 7 or above (R24, R159). Safe: the spec gives it no meaning. -/
  | reservedRegister (n : Nat)
  /-- A host access of a buffer element outside its capacity (R35, R159). Safe: the spec gives it no meaning. -/
  | outsideCapacity (b : Buffer) (k : Nat)
  /-- A host write of a value that has not exactly the register's width (R35). Safe: the spec knows no such write. -/
  | wrongWidth (r : Reg)
  deriving DecidableEq, Repr

/-- The outcome of an operation, of a host form or of a step. -/
abbrev Result := Host.Outcome State Fault Refusal

/-- The block after reset (R170), with the given capacities, and an empty host program. -/
def State.resetWith (caps : Config.Caps) : State where
  caps := caps
  status := 0x00000007#32
  width := none
  height := none
  hdrLen := none
  wordAvail := none
  wordCount := none
  hbuf := []
  wmem := []
  gmem := []
  hostProg := []
  hostPos := 0
  hostReads := []
  hostResult := none

/-- The machine right after reset (R170), with unbounded capacities. -/
def State.reset : State := State.resetWith Config.unbounded

end Sys2Proof.Machine
end

