-- ==== Sys2Proof/Machine/Operands.lean ====
section
/-! DEFINITION. Derived quantities, byte assembly, packed bits and the display mapping (R6, R11 to R13, R42 to R50).
Counts and indices are exact natural numbers; none of them wraps (R10). -/

namespace Sys2Proof.Machine

open Sys2Proof

/-- `MAGIC` of R6. -/
def magic : Word := 0x4D544942#32

/-- `N(W, H) = W * H`, exact (R10, R11). -/
def numPixels (w h : Word) : Nat := w.toNat * h.toNat

/-- `ceil(n / 32)` (R10). -/
def ceilWords (n : Nat) : Nat := (n + 31) / 32

/-- `NW(W, H) = ceil(N(W, H) / 32)` (R11). -/
def numWords (w h : Word) : Nat := ceilWords (numPixels w h)

/-- `lin(x, y) = y * W + x` (R11, R47). -/
def lin (w x y : Nat) : Nat := y * w + x

/-- `word_index(i) = i div 32` (R11). -/
def wordIndex (i : Nat) : Nat := i / 32

/-- `bit_index(i) = i mod 32` (R11). -/
def bitIndex (i : Nat) : Nat := i % 32

/-- `PAD(W, H)`, the unused high bits of the last word (R11, R50). -/
def padBits (w h : Word) : Nat := 32 * numWords w h - numPixels w h

/-- `LE32(b0, b1, b2, b3)` (R12). -/
def le32 (b0 b1 b2 b3 : Byte) : Word :=
  b0.setWidth 32 ||| b1.setWidth 32 <<< 8 ||| b2.setWidth 32 <<< 16 ||| b3.setWidth 32 <<< 24

/-- `LE32_BYTES(v)`, first byte first (R12). -/
def le32Bytes (v : Word) : List Byte :=
  [v.extractLsb' 0 8, v.extractLsb' 8 8, v.extractLsb' 16 8, v.extractLsb' 24 8]

/-- `BitGet(words, i)` (R13): packed bit `i`; `true` is 1. No caller asks for a bit past the end of the list (R101). -/
def bitGet (ws : List Word) (i : Nat) : Bool :=
  match ws[wordIndex i]? with
  | some w => ((w >>> bitIndex i) &&& 1#32) == 1#32
  | none => false

/-- `BitSet(words, i)` (R13). -/
def bitSet (ws : List Word) (i : Nat) : List Word :=
  ws.modify (wordIndex i) (fun w => w ||| 1#32 <<< bitIndex i)

/-- `to_bit(d)` (R49): black, display value 0, is bit 1; every other value is bit 0. -/
def toBit (d : Byte) : Bool := d == 0#8

/-- `to_display(b)` (R49): bit 1 is 0 (black), bit 0 is 255 (white). -/
def toDisplay (b : Bool) : Byte := if b then 0#8 else 255#8

end Sys2Proof.Machine
end

