-- ==== Sys2Proof/Machine/Flags.lean ====
section
/-! DEFINITION. The block has no condition flags (R23); its only status is the `CODE` field of `STATUS` (R26, R66). -/

namespace Sys2Proof.Machine

open Sys2Proof

/-- The numeric value of a code (R66). -/
def codeBits (c : StatusCode) : BitVec 3 :=
  match c with
  | .ok => 0#3
  | .invalidMagic => 1#3
  | .truncated => 2#3
  | .capacity => 3#3
  | .badCommand => 4#3
  | .none => 7#3

/-- The whole `STATUS` word that reports a code: bits `[31:3]` read as zero (R26). -/
def statusWord (c : StatusCode) : Word := (codeBits c).setWidth 32

/-- `STATUS.CODE`, bits `[2:0]` of `STATUS` (R26). -/
def codeField (st : Word) : BitVec 3 := st.extractLsb' 0 3

/-- `STATUS.CODE <- c` (R26). -/
def setStatus (c : StatusCode) (s : State) : State := { s with status := statusWord c }

end Sys2Proof.Machine
end

