-- ==== Sys2Proof/Machine/Ops.lean ====
section
/-! DEFINITION. The named operations over registers and buffers, and the effect of an error.
The block has no traps; the reported error of R156 is what takes their place, and there is no return from one (R157). -/

namespace Sys2Proof.Machine

open Sys2Proof

/-- The canonical form of a buffer: indices strictly rising, so each index stands once. -/
abbrev Memory.wf {α : Type} (m : Memory α) : Prop := m.Pairwise (fun p q => p.1 < q.1)

/-- The value cell `a` holds, or nothing where it holds no value (R34). -/
def Memory.read {α : Type} (m : Memory α) (a : Nat) : Option α :=
  match m with
  | [] => none
  | (k, v) :: rest => if k = a then some v else Memory.read rest a

/-- The entries of the values `vs` at the indices from `a` on. -/
def cellsAt {α : Type} (a : Nat) (vs : List α) : Memory α :=
  match vs with
  | [] => []
  | v :: rest => (a, v) :: cellsAt (a + 1) rest

/-- Writes the values `vs` to the cells from `a` on and leaves every other cell as it is (R14, R52). -/
def Memory.writeRange {α : Type} (m : Memory α) (a : Nat) (vs : List α) : Memory α :=
  m.filter (fun p => decide (p.1 < a)) ++ cellsAt a vs ++ m.filter (fun p => decide (a + vs.length ≤ p.1))

/-- Reads the `n` cells from `a` on, in rising order; answers the first index that holds no value where there is one
(R34, R158). -/
def Memory.readRange {α : Type} (m : Memory α) (a n : Nat) : Except Nat (List α) :=
  match n with
  | 0 => .ok []
  | n + 1 =>
    match m.read a with
    | none => .error a
    | some v =>
      match m.readRange (a + 1) n with
      | .error k => .error k
      | .ok vs => .ok (v :: vs)

/-- Reads a register operand: `fault UNSET_OPERAND(reg) if it holds no value` (R14, R34, R35, R81, R88, R101, R121, R158). -/
def withOperand {n : Nat} (r : Reg) (v : Option (BitVec n)) (k : BitVec n → Result) : Result :=
  match v with
  | none => .fault (.unsetOperand r)
  | some x => k x

/-- Reads one buffer cell: `fault UNSET_DATA(buffer, a) if it holds no value` (R158). -/
def withCell {α : Type} (b : Buffer) (m : Memory α) (a : Nat) (k : α → Result) : Result :=
  match m.read a with
  | none => .fault (.unsetData b a)
  | some v => k v

/-- Reads the buffer cells `a .. a + n - 1` in rising order, with the fault of `withCell` for the first that holds no
value. -/
def withCells {α : Type} (b : Buffer) (m : Memory α) (a n : Nat) (k : List α → Result) : Result :=
  match m.readRange a n with
  | .error i => .fault (.unsetData b i)
  | .ok vs => k vs

/-- Whether `n` is more than a capacity; never where the capacity is unbounded (R8, R152). -/
def exceeds (n : Nat) (cap : Option Nat) : Bool :=
  match cap with
  | none => false
  | some c => decide (c < n)

/-- `raise E` (R14, R156): the operation ends with the error's code in `STATUS` and nothing else changes. -/
def raise (c : StatusCode) (s : State) : Result := .next (setStatus c s)

/-- The end of an operation that wrote its results: `STATUS.CODE <- OK` (R15, R66). -/
def finish (s : State) : Result := .next (setStatus .ok s)

end Sys2Proof.Machine
end

