-- ==== Sys2Proof/Machine/Header.lean ====
section
/-! DEFINITION. `HDR.PARSE` and `HDR.WRITE` (R80 to R90), with their functions independent of registers. -/

namespace Sys2Proof.Machine

open Sys2Proof

/-- `parse_header(s)` of R80, on the first bytes of a stream. -/
def parseHeader (s : List Byte) : Except StatusCode (Word × Word) :=
  match s with
  | b0 :: b1 :: b2 :: b3 :: rest =>
    if le32 b0 b1 b2 b3 ≠ magic then .error .invalidMagic
    else
      match rest with
      | b4 :: b5 :: b6 :: b7 :: b8 :: b9 :: b10 :: b11 :: _ => .ok (le32 b4 b5 b6 b7, le32 b8 b9 b10 b11)
      | _ => .error .truncated
  | _ => .error .truncated

/-- `write_header(W, H)` of R87. -/
def writeHeader (w h : Word) : List Byte := le32Bytes magic ++ le32Bytes w ++ le32Bytes h

/-- One little-endian field of the header, `LE32(HBUF[k], .., HBUF[k+3])`, its bytes read in rising order (R44, R68). -/
def withField (s : State) (k : Nat) (f : Word → Result) : Result :=
  withCell .hbuf s.hbuf k fun b0 =>
  withCell .hbuf s.hbuf (k + 1) fun b1 =>
  withCell .hbuf s.hbuf (k + 2) fun b2 =>
  withCell .hbuf s.hbuf (k + 3) fun b3 =>
  f (le32 b0 b1 b2 b3)

/-- `L = min(HDR_LEN, 12)` (R28, R81). -/
def headerLength (hdrLen : Word) : Nat := min hdrLen.toNat Config.headerBytes

/-- `HDR.PARSE` (R81), in the order of R154. -/
def execHdrParse (s : State) : Result :=
  withOperand .hdrLen s.hdrLen fun len =>
  if headerLength len < 4 then raise .truncated s
  else
    withField s 0 fun m =>
    if m ≠ magic then raise .invalidMagic s
    else if headerLength len < 12 then raise .truncated s
    else
      withField s 4 fun w =>
      withField s 8 fun h =>
      finish { s with
        width := some w
        height := some h
        wordCount := some (BitVec.ofNat 64 (numWords w h)) }

/-- `HDR.WRITE` (R88). -/
def execHdrWrite (s : State) : Result :=
  withOperand .width s.width fun w =>
  withOperand .height s.height fun h =>
  finish { s with
    hbuf := s.hbuf.writeRange 0 (writeHeader w h)
    hdrLen := some 12#32 }

end Sys2Proof.Machine
end

