-- ==== Sys2Proof/Machine/Pack.lean ====
section
/-! DEFINITION. `PACK` (R120 to R129), with its function independent of registers. -/

namespace Sys2Proof.Machine

open Sys2Proof

/-- The packed bit of pixel `i` of a grid; a lane past the last pixel is tail padding, written as zero (R50, R69, R123). -/
def laneBit (grid : List Byte) (i : Nat) : Bool :=
  match grid[i]? with
  | some d => toBit d
  | none => false

/-- Word `k` of the packed grid in one step (R129): from zero, each lane `b` of a black pixel `32k + b` is set. -/
def packWord (grid : List Byte) (k : Nat) : Word :=
  (List.range 32).foldl (fun acc b => if laneBit grid (32 * k + b) then acc ||| 1#32 <<< b else acc) 0#32

/-- The `n` words of a packed grid (R121, R129). -/
def packWords (grid : List Byte) (n : Nat) : List Word := (List.range n).map (packWord grid)

/-- The row-major loop of R120: all words zero, then `BitSet(words, lin(x, y))` for each black pixel. -/
def packLoop (grid : List Byte) (w h : Nat) : List Word :=
  (List.range h).foldl (fun ws y =>
    (List.range w).foldl (fun ws x => if laneBit grid (lin w x y) then bitSet ws (lin w x y) else ws) ws)
    (List.replicate (ceilWords (w * h)) 0#32)

/-- `PACK` (R121): every read before any write, errors in the order of R154. -/
def execPack (s : State) : Result :=
  withOperand .width s.width fun w =>
  withOperand .height s.height fun h =>
  if exceeds (numPixels w h) s.caps.pixelCap then raise .capacity s
  else if exceeds (numWords w h) s.caps.wordCap then raise .capacity s
  else
    withCells .gmem s.gmem 0 (numPixels w h) fun grid =>
    finish { s with
      wmem := s.wmem.writeRange 0 (packWords grid (numWords w h))
      wordCount := some (BitVec.ofNat 64 (numWords w h))
      wordAvail := some (BitVec.ofNat 64 (numWords w h)) }

end Sys2Proof.Machine
end

