-- ==== Sys2Proof/Machine/Unpack.lean ====
section
/-! DEFINITION. `UNPACK` (R100 to R107), with its function independent of registers. -/

namespace Sys2Proof.Machine

open Sys2Proof

/-- The grid of `n` pixels as the function `g(i) = to_display(BitGet(words, i))` (R101, R107). -/
def unpackGrid (ws : List Word) (n : Nat) : List Byte := (List.range n).map fun i => toDisplay (bitGet ws i)

/-- The row-major loop of R100, its pixels in the order it visits them: the grid of R47. -/
def unpackLoop (ws : List Word) (w h : Nat) : List Byte :=
  (List.range h).flatMap fun y => (List.range w).map fun x => toDisplay (bitGet ws (lin w x y))

/-- `UNPACK` (R101): every read before any write, errors in the order of R154. -/
def execUnpack (s : State) : Result :=
  withOperand .width s.width fun w =>
  withOperand .height s.height fun h =>
  withOperand .wordAvail s.wordAvail fun a =>
  if exceeds a.toNat s.caps.wordCap then raise .badCommand s
  else if a.toNat < numWords w h then raise .truncated s
  else if exceeds (numPixels w h) s.caps.pixelCap then raise .capacity s
  else
    withCells .wmem s.wmem 0 (numWords w h) fun ws =>
    finish { s with
      gmem := s.gmem.writeRange 0 (unpackGrid ws (numPixels w h))
      wordCount := some (BitVec.ofNat 64 (numWords w h)) }

end Sys2Proof.Machine
end

