-- ==== Sys2Proof/Machine/Bus.lean ====
section
/-! DEFINITION. Host access to the interface registers and buffers between operations (R24, R25, R31 to R35).
A write to `CMD` issues an operation and stands in Machine/Drive.lean. -/

namespace Sys2Proof.Machine

open Sys2Proof

/-- The register of a number (R24); 7 and above are reserved. -/
def regOfNum (n : Nat) : Option Reg :=
  match n with
  | 0 => some .cmd
  | 1 => some .status
  | 2 => some .width
  | 3 => some .height
  | 4 => some .hdrLen
  | 5 => some .wordAvail
  | 6 => some .wordCount
  | _ => none

/-- The width column of R24. -/
def regBits (r : Reg) : Nat :=
  match r with
  | .cmd | .status | .width | .height | .hdrLen => 32
  | .wordAvail | .wordCount => 64

/-- How many bits a datum has. -/
def datumBits (d : Datum) : Nat :=
  match d with
  | .d8 _ => 8
  | .d32 _ => 32
  | .d64 _ => 64

/-- The host's write of register `r`, `CMD` apart (R24, R35): stored in `WIDTH`, `HEIGHT`, `HDR_LEN`, `WORD_AVAIL`, ignored
by `STATUS` and `WORD_COUNT`; a value of another width than the register's has no meaning. -/
def writeReg (r : Reg) (d : Datum) (s : State) : Result :=
  match r, d with
  | .status, .d32 _ => .next s
  | .width, .d32 v => .next { s with width := some v }
  | .height, .d32 v => .next { s with height := some v }
  | .hdrLen, .d32 v => .next { s with hdrLen := some v }
  | .wordAvail, .d64 v => .next { s with wordAvail := some v }
  | .wordCount, .d64 _ => .next s
  | r, _ => .refused (.wrongWidth r)

/-- The host's read of register `r` (R24, R35): `CMD` reads 0 (R25); a register that holds no value is a model fault. -/
def readReg (r : Reg) (s : State) (k : Datum → Result) : Result :=
  match r with
  | .cmd => k (.d32 0x00000000#32)
  | .status => k (.d32 s.status)
  | .width => withOperand .width s.width fun v => k (.d32 v)
  | .height => withOperand .height s.height fun v => k (.d32 v)
  | .hdrLen => withOperand .hdrLen s.hdrLen fun v => k (.d32 v)
  | .wordAvail => withOperand .wordAvail s.wordAvail fun v => k (.d64 v)
  | .wordCount => withOperand .wordCount s.wordCount fun v => k (.d64 v)

/-- The host keeps what a read returned; no state of the block changes (R53). -/
def logRead (s : State) (d : Datum) : Result := .next { s with hostReads := d :: s.hostReads }

/-- How many elements a buffer holds (R31 to R33). -/
def capacityOf (b : Buffer) (caps : Config.Caps) : Option Nat :=
  match b with
  | .hbuf => some Config.headerBytes
  | .wmem => caps.wordCap
  | .gmem => caps.pixelCap

/-- Whether every one of the `n` elements from `k` on lies inside the buffer (R35). -/
def accessOk (b : Buffer) (caps : Config.Caps) (k n : Nat) : Bool :=
  n == 0 || !exceeds (k + n) (capacityOf b caps)

/-- A host access is refused where one of its elements is outside the capacity (R35, R159). -/
def withAccess (b : Buffer) (k n : Nat) (s : State) (r : Result) : Result :=
  if accessOk b s.caps k n then r else .refused (.outsideCapacity b k)

/-- `wr HBUF[k], b0, b1, ...` (R71). -/
def writeHbuf (k : Nat) (bs : List Byte) (s : State) : Result :=
  withAccess .hbuf k bs.length s (.next { s with hbuf := s.hbuf.writeRange k bs })

/-- `wr WMEM[k], w0, w1, ...` (R71). -/
def writeWmem (k : Nat) (ws : List Word) (s : State) : Result :=
  withAccess .wmem k ws.length s (.next { s with wmem := s.wmem.writeRange k ws })

/-- `wr GMEM[a], p0, p1, ...` (R71). -/
def writeGmem (k : Nat) (ps : List Byte) (s : State) : Result :=
  withAccess .gmem k ps.length s (.next { s with gmem := s.gmem.writeRange k ps })

/-- The host reads `HBUF[k]` (R31). -/
def readHbuf (k : Nat) (s : State) : Result :=
  withAccess .hbuf k 1 s (withCell .hbuf s.hbuf k fun v => logRead s (.d8 v))

/-- The host reads `WMEM[k]` (R32). -/
def readWmem (k : Nat) (s : State) : Result :=
  withAccess .wmem k 1 s (withCell .wmem s.wmem k fun v => logRead s (.d32 v))

/-- The host reads `GMEM[k]` (R33). -/
def readGmem (k : Nat) (s : State) : Result :=
  withAccess .gmem k 1 s (withCell .gmem s.gmem k fun v => logRead s (.d8 v))

end Sys2Proof.Machine
end

