-- ==== Sys2Proof/Machine/Stream.lean ====
section
/-! DEFINITION. The host's steps of the stream sequences and the sequences as host programs (R72, R140 to R146).
They are host software, not operations of the block (R72); the format's sequencing rules live in them. -/

namespace Sys2Proof.Machine

open Sys2Proof

/-- Packed word `k` of the stream `s`, `LE32(s[12+4k], .., s[15+4k])` (R45, R141); only asked where all four bytes exist. -/
def streamWord (s : List Byte) (k : Nat) : Word :=
  match s.drop (12 + 4 * k) with
  | b0 :: b1 :: b2 :: b3 :: _ => le32 b0 b1 b2 b3
  | _ => 0#32

/-- The first `a` packed words of a stream (R141). -/
def streamWords (s : List Byte) (a : Nat) : List Word := (List.range a).map (streamWord s)

/-- `a = min((Ls - 12) div 4, NW)`: how many words the host loads (R140, R141). -/
def wordsToLoad (s : List Byte) (n : Nat) : Nat := min ((s.length - 12) / 4) n

/-- The host goes on with the next line of its program. -/
def advance (s : State) : State := { s with hostPos := s.hostPos + 1 }

/-- `n <- rd WORD_COUNT; a <- ..; wr WMEM[0], ..; wr WORD_AVAIL, a` of R140; where a finite `WORD_CAP` is too small the host
stops with `CAPACITY`, `STATUS` as it was. -/
def loadWords (bytes : List Byte) (stop : Nat) (s : State) : Result :=
  withOperand .wordCount s.wordCount fun n =>
  if exceeds (wordsToLoad bytes n.toNat) s.caps.wordCap then
    .next { s with hostResult := some (.failed (codeBits .capacity)), hostPos := stop }
  else
    .next { advance s with
      wmem := s.wmem.writeRange 0 (streamWords bytes (wordsToLoad bytes n.toNat))
      wordAvail := some (BitVec.ofNat 64 (wordsToLoad bytes n.toNat)) }

/-- `hand (WIDTH, HEIGHT, GMEM[0 .. N-1]) to save_monochrome_raster` (R140). -/
def handGrid (s : State) : Result :=
  withOperand .width s.width fun w =>
  withOperand .height s.height fun h =>
  withAccess .gmem 0 (numPixels w h) s <|
  withCells .gmem s.gmem 0 (numPixels w h) fun px =>
  .next { advance s with hostResult := some (.grid w h px) }

/-- `out <- HBUF[0..11] ++ LE32_BYTES(WMEM[0]) ++ ... ++ LE32_BYTES(WMEM[WORD_COUNT-1])` (R144). -/
def emitStream (s : State) : Result :=
  withCells .hbuf s.hbuf 0 Config.headerBytes fun header =>
  withOperand .wordCount s.wordCount fun n =>
  withAccess .wmem 0 n.toNat s <|
  withCells .wmem s.wmem 0 n.toNat fun ws =>
  .next { advance s with hostResult := some (.stream (header ++ ws.flatMap le32Bytes)) }

/-- `surface (input path, STATUS.CODE) to the caller` (R140, R144); the path is the host's own (R85). -/
def surface (s : State) : Result :=
  .next { advance s with hostResult := some (.failed (codeField s.status)) }

/-- `DECODE.STREAM s` (R140) as a host program; line 9 is its label `fail`. -/
def decodeStream (bytes : List Byte) : List HostForm :=
  [ .wrHbuf 0 (bytes.take 12),
    .wrReg 4 (.d32 (BitVec.ofNat 32 (min bytes.length 12))),
    .cmd 0x00000000#32,
    .bneStatus 9,
    .loadWords bytes 10,
    .cmd 0x00000002#32,
    .bneStatus 9,
    .handGrid,
    .halt,
    .surface,
    .halt ]

/-- `ENCODE.STREAM (W, H, grid)` (R144) as a host program, the grid in row-major order; line 8 is its label `fail`. -/
def encodeStream (w h : Word) (grid : List Byte) : List HostForm :=
  [ .wrReg 2 (.d32 w),
    .wrReg 3 (.d32 h),
    .wrGmem 0 grid,
    .cmd 0x00000003#32,
    .bneStatus 8,
    .cmd 0x00000001#32,
    .emitStream,
    .halt,
    .surface,
    .halt ]

end Sys2Proof.Machine
end

