-- ==== Sys2Proof/Machine/Drive.lean ====
section
/-! DEFINITION. What one line of the host's program does: a `CMD` write issues an operation (R60, R63), the other forms are
host accesses (R35), the host's branch (R148), the reset input (R170, R172) and the stream steps (R140, R144). -/

namespace Sys2Proof.Machine

open Sys2Proof

/-- A `CMD` write of the word `c` (R60, R63): a reserved bit gives `BAD_COMMAND` and no other effect, before every check of
every operation; otherwise the selected operation runs to completion. -/
def issue (c : Word) (s : State) : Result :=
  match decode c with
  | .ok i => exec i s
  | .error .reservedBits => raise .badCommand s

/-- `wr REG, imm` (R24, R35, R60); a reserved number is refused (R159). -/
def hostWriteReg (n : Nat) (d : Datum) (s : State) : Result :=
  match regOfNum n with
  | none => .refused (.reservedRegister n)
  | some .cmd =>
    match d with
    | .d32 c => issue c s
    | _ => .refused (.wrongWidth .cmd)
  | some r => writeReg r d s

/-- `rd REG` (R24, R35); a reserved number is refused (R159). -/
def hostReadReg (n : Nat) (s : State) : Result :=
  match regOfNum n with
  | none => .refused (.reservedRegister n)
  | some r => readReg r s (logRead s)

/-- `bne.status label`: the host branches if `STATUS.CODE != OK` (R71, R148). -/
def branchStatus (label : Nat) (s : State) : State :=
  if codeField s.status = codeBits .ok then advance s else { s with hostPos := label }

/-- The block's reset input (R170): every register and buffer as after reset; the capacities and the host stay. -/
def resetBlock (s : State) : State :=
  { State.resetWith s.caps with
    hostProg := s.hostProg
    hostPos := s.hostPos
    hostReads := s.hostReads
    hostResult := s.hostResult }

/-- One line of the host's program; `halt` ends the program, so the host does nothing more. -/
def runForm (f : HostForm) (s : State) : Result :=
  match f with
  | .wrReg n d => hostWriteReg n d (advance s)
  | .rdReg n => hostReadReg n (advance s)
  | .wrHbuf k bs => writeHbuf k bs (advance s)
  | .wrWmem k ws => writeWmem k ws (advance s)
  | .wrGmem a ps => writeGmem a ps (advance s)
  | .rdHbuf k => readHbuf k (advance s)
  | .rdWmem k => readWmem k (advance s)
  | .rdGmem a => readGmem a (advance s)
  | .bneStatus label => .next (branchStatus label s)
  | .halt => .next s
  | .reset => .next (resetBlock (advance s))
  | .loadWords bytes stop => loadWords bytes stop s
  | .handGrid => handGrid s
  | .emitStream => emitStream s
  | .surface => surface s

/-- The next line of the host's program, where there is one. -/
def nextForm (s : State) : Option HostForm := s.hostProg[s.hostPos]?

/-- `s` with the form `f` as the next line of the host's program; the line that stood there gives way to it. -/
def placeForm (f : HostForm) (s : State) : State :=
  { s with
    hostProg := s.hostProg.take s.hostPos ++ f :: s.hostProg.drop (s.hostPos + 1)
    hostPos := min s.hostPos s.hostProg.length }

end Sys2Proof.Machine
end

