-- ==== Sys2Proof/Machine/Step.lean ====
section
/-! DEFINITION. One step of the machine: the next line of the host's program (R22, R56). -/

namespace Sys2Proof.Machine

open Sys2Proof

/-- The host and the block never run at the same time (R56, R176): a step is one line of the host's program, and a `CMD` write
is one whole operation. With no line left the host does nothing and the block is idle (R157, R171). -/
def step (s : State) : Host.Outcome State Fault Refusal :=
  match nextForm s with
  | none => .next s
  | some f => runForm f s

/-- `s` with a `CMD` write of the opcode-table word `w` as the host's next line, so that `step` issues exactly it. -/
def State.withFetchWord (s : State) (nbits w : Nat) : State :=
  placeForm (.cmd (BitVec.ofNat 32 (w % 2 ^ nbits))) s

end Sys2Proof.Machine
end

