-- ==== Sys2Proof/Safety.lean ====
section
/-! DEFINITION. What holds in every state of a sound run, and what an outcome must be to count as successful (R15, R158). -/

namespace Sys2Proof.Machine

open Sys2Proof

/-- Every index a buffer lists lies inside its capacity (R31 to R33). -/
def Memory.within {α : Type} (m : Memory α) (cap : Option Nat) : Prop :=
  ∀ c, cap = some c → ∀ p ∈ m, p.1 < c

/-- `STATUS` is one of the words R26 and R66 allow: a produced code in bits `[2:0]`, the other bits zero. -/
def legalStatus (st : Word) : Prop := ∃ c : StatusCode, st = statusWord c

/-- The invariant of the machine: canonical buffers inside their capacities, a legal `STATUS`, and a `WORD_COUNT` that some
pair of dimensions gives (R11, R26, R30 to R33). -/
structure State.Inv (s : State) : Prop where
  hbuf_wf : s.hbuf.wf
  wmem_wf : s.wmem.wf
  gmem_wf : s.gmem.wf
  hbuf_within : s.hbuf.within (some Config.headerBytes)
  wmem_within : s.wmem.within s.caps.wordCap
  gmem_within : s.gmem.within s.caps.pixelCap
  status_legal : legalStatus s.status
  count_of_dims : ∀ n, s.wordCount = some n → ∃ w h : Word, n.toNat = numWords w h

/-- The first `n` cells of a buffer hold the values of `f`. -/
def Memory.Holds {α : Type} (m : Memory α) (n : Nat) (f : Nat → α) : Prop := ∀ k < n, m.read k = some (f k)

/-- Cell `k` of a buffer is the first of the cells from `a` on that holds no value (R158). -/
def Memory.FirstUnset {α : Type} (m : Memory α) (a k : Nat) : Prop :=
  a ≤ k ∧ m.read k = none ∧ ∀ j, a ≤ j → j < k → (m.read j).isSome

/-- Register `r` holds no value (R34); `CMD` and `STATUS` always read as one (R34). -/
def RegUnset (s : State) (r : Reg) : Prop :=
  match r with
  | .cmd => False
  | .status => False
  | .width => s.width = none
  | .height => s.height = none
  | .hdrLen => s.hdrLen = none
  | .wordAvail => s.wordAvail = none
  | .wordCount => s.wordCount = none

/-- Cell `k` of buffer `b` holds no value (R34). -/
def CellUnset (s : State) (b : Buffer) (k : Nat) : Prop :=
  match b with
  | .hbuf => s.hbuf.read k = none
  | .wmem => s.wmem.read k = none
  | .gmem => s.gmem.read k = none

/-- The registers an operation reads (R54, R65). -/
def readsReg (i : Instr) (r : Reg) : Bool :=
  match i, r with
  | .hdrParse, .hdrLen => true
  | .hdrWrite, .width => true
  | .hdrWrite, .height => true
  | .unpack, .width => true
  | .unpack, .height => true
  | .unpack, .wordAvail => true
  | .pack, .width => true
  | .pack, .height => true
  | _, _ => false

/-- The buffer an operation reads (R54, R65); `HDR.WRITE` reads none. -/
def readsBuffer (i : Instr) (b : Buffer) : Bool :=
  match i, b with
  | .hdrParse, .hbuf => true
  | .unpack, .wmem => true
  | .pack, .gmem => true
  | _, _ => false

/-- `HBUF[k .. k+3]` hold values and assemble to `v` (R44, R68). -/
def FieldIs (s : State) (k : Nat) (v : Word) : Prop :=
  ∃ b0 b1 b2 b3 : Byte,
    s.hbuf.read k = some b0 ∧ s.hbuf.read (k + 1) = some b1 ∧ s.hbuf.read (k + 2) = some b2 ∧
    s.hbuf.read (k + 3) = some b3 ∧ v = le32 b0 b1 b2 b3

/-- The operation reported `OK` (R15): it ended in a next state whose `STATUS.CODE` is `OK`; a fault or a refusal is no
success (R158, R159). -/
def Succeeds (r : Result) : Prop := ∃ t, r = .next t ∧ codeField t.status = codeBits .ok

end Sys2Proof.Machine
end

