-- ==== Sys2Proof/WellFormed.lean ====
section
/-! DEFINITION. What is well-formed: an operation, a command word, a line of a host program.
An operation has no operand field (R65) and every value of `OP` selects one (R62), so every term of `Instr` is well-formed;
the only ill-formed command words are those with a reserved bit set (R62, R63). -/

namespace Sys2Proof

/-- Every operation is well-formed: there is no operand to check (R62, R65). -/
def Instr.wf (i : Instr) : Bool :=
  match i with
  | .hdrParse => true
  | .hdrWrite => true
  | .unpack => true
  | .pack => true

/-- A command word is well-formed when its reserved bits `[31:2]` are zero (R62, R63). -/
def commandWordWf (c : Word) : Bool := reservedField c == 0

namespace Machine

/-- A line of a host program that the block's interface gives a meaning to (R35, R159): register numbers 0 to 6, values of
exactly the register's width, buffer elements inside the capacity. -/
def HostForm.wf (caps : Config.Caps) (f : HostForm) : Bool :=
  match f with
  | .wrReg n d =>
    match regOfNum n with
    | none => false
    | some r => datumBits d == regBits r
  | .rdReg n => (regOfNum n).isSome
  | .wrHbuf k bs => accessOk .hbuf caps k bs.length
  | .wrWmem k ws => accessOk .wmem caps k ws.length
  | .wrGmem a ps => accessOk .gmem caps a ps.length
  | .rdHbuf k => accessOk .hbuf caps k 1
  | .rdWmem k => accessOk .wmem caps k 1
  | .rdGmem a => accessOk .gmem caps a 1
  | .bneStatus _ => true
  | .halt => true
  | .reset => true
  | .loadWords _ _ => true
  | .handGrid => true
  | .emitStream => true
  | .surface => true

end Machine

end Sys2Proof
end

