-- ==== Sys2Proof/Certificates/Slice0/Obligations.lean ====
section
/-! DEFINITION. The statements about the block, from the numbered rules of spec/. Each docstring names the rule. -/

open Sys2Proof Sys2Proof.Machine

/-! ### Reset, issue, encoding -/

/-- R170: after reset `STATUS` is 7, `CMD` reads 0, every other register and every buffer cell holds no value.
Two clauses are the model's choices, not R170's: that the host has no program (notes/assumptions/3.md, DESIGN CHOICE) and that
`State.reset` is this state with unbounded capacities (notes/assumptions/2.md, DESIGN CHOICE). -/
def Obligations.ResetLeavesNoValue : Prop :=
  ∀ caps : Config.Caps,
    (State.resetWith caps).status = 0x00000007#32 ∧
    hostReadReg 0 (State.resetWith caps) = .next { State.resetWith caps with hostReads := [.d32 0#32] } ∧
    (∀ r, r ≠ .cmd → r ≠ .status → RegUnset (State.resetWith caps) r) ∧
    (∀ b k, CellUnset (State.resetWith caps) b k) ∧
    (State.resetWith caps).hostProg = [] ∧
    State.reset = State.resetWith Config.unbounded

/-- The state after reset meets the invariant, whatever the capacities. -/
def Obligations.ResetMeetsInvariant : Prop :=
  State.reset.Inv ∧ ∀ caps, (State.resetWith caps).Inv

/-- R171: after reset every operation stops on a register it reads, and `HDR.PARSE` with `HDR_LEN` written and below 4 reports
`TRUNCATED` without reading `HBUF`. Which of several unset registers the fault names is the model's choice
(notes/assumptions/8.md, DEDUCED). -/
def Obligations.OperationsAfterReset : Prop :=
  ∀ caps : Config.Caps,
    exec .hdrParse (State.resetWith caps) = .fault (.unsetOperand .hdrLen) ∧
    exec .hdrWrite (State.resetWith caps) = .fault (.unsetOperand .width) ∧
    exec .unpack (State.resetWith caps) = .fault (.unsetOperand .width) ∧
    exec .pack (State.resetWith caps) = .fault (.unsetOperand .width) ∧
    ∀ len : Word, len.toNat < 4 →
      exec .hdrParse { State.resetWith caps with hdrLen := some len } =
        .next { State.resetWith caps with hdrLen := some len, status := 2#32 }

/-- R60: a host write of a command word to `CMD` performs the decoded operation. Around `exec` a step only moves the host to
the next line of its program. -/
def Obligations.StepRunsIssuedOperation : Prop :=
  ∀ (s : State) (c : Word) (i : Instr), nextForm s = some (.cmd c) → decode c = .ok i →
    step s = exec i (advance s)

/-- `withFetchWord` places exactly the operation: the next step runs it, in every state (R60 says what the `CMD` write it places
does). The placing itself is the model's choice, no rule of the spec: how a program is loaded (notes/assumptions/3.md, DESIGN
CHOICE) and how a table word is read (notes/assumptions/12.md, DESIGN CHOICE). -/
def Obligations.PlacedWordRuns : Prop :=
  ∀ (s : State) (i : Instr),
    step (s.withFetchWord 32 (encode i).toNat) = exec i (advance (s.withFetchWord 32 (encode i).toNat)) ∧
    (∃ p q, s.withFetchWord 32 (encode i).toNat = { s with hostProg := p, hostPos := q })

/-- R61: the four command words select the four operations. -/
def Obligations.CommandWordsSelect : Prop :=
  decode 0x00000000#32 = .ok .hdrParse ∧ decode 0x00000001#32 = .ok .hdrWrite ∧
  decode 0x00000002#32 = .ok .unpack ∧ decode 0x00000003#32 = .ok .pack

/-- Decoding answers an operation exactly on that operation's command word. -/
def Obligations.DecodeInvertsEncode : Prop :=
  ∀ (w : Word) (i : Instr), decode w = .ok i ↔ w = encode i

/-- R63: a `CMD` write with any of bits 31 to 2 set gives `BAD_COMMAND` and changes nothing else, in every state; otherwise bits
1 and 0 select the operation. (The host moves to its next line in both cases.) -/
def Obligations.ReservedBitsGiveBadCommand : Prop :=
  ∀ (c : Word) (s : State), nextForm s = some (.cmd c) →
    ((∃ b, 2 ≤ b ∧ b < 32 ∧ c.getLsbD b = true) → step s = .next { advance s with status := 0x00000004#32 }) ∧
    ((∀ b, 2 ≤ b → b < 32 → c.getLsbD b = false) →
      step s = exec (match c.getLsbD 1, c.getLsbD 0 with
        | false, false => .hdrParse
        | false, true => .hdrWrite
        | true, false => .unpack
        | true, true => .pack) (advance s))

/-! ### Counts and byte order -/

/-- R11: the counts and their bounds; a pixel count fits 64 bits, a word count fits its 64-bit register, and a last word has at
most 31 padding bits. -/
def Obligations.CountsFitTheirRegisters : Prop :=
  ∀ w h : Word,
    numPixels w h = w.toNat * h.toNat ∧ numPixels w h ≤ 0xFFFFFFFE00000001 ∧
    numWords w h = (numPixels w h + 31) / 32 ∧ numWords w h ≤ 0x07FFFFFFF0000001 ∧
    (BitVec.ofNat 64 (numWords w h)).toNat = numWords w h ∧
    padBits w h + numPixels w h = 32 * numWords w h ∧ padBits w h ≤ 31

/-- R12: `LE32` reads four bytes as one little-endian number, `LE32_BYTES` emits the same four bytes, first byte first. -/
def Obligations.LittleEndianAssembly : Prop :=
  (∀ b0 b1 b2 b3 : Byte,
    (le32 b0 b1 b2 b3).toNat = b0.toNat + 256 * b1.toNat + 65536 * b2.toNat + 16777216 * b3.toNat ∧
    le32Bytes (le32 b0 b1 b2 b3) = [b0, b1, b2, b3]) ∧
  (∀ v : Word, ∃ b0 b1 b2 b3, le32Bytes v = [b0, b1, b2, b3] ∧ le32 b0 b1 b2 b3 = v)

/-! ### HDR.PARSE -/

/-- R80: the parser's function on the first bytes of a stream. -/
def Obligations.ParseHeaderFunction : Prop :=
  ∀ s : List Byte,
    (s.length < 4 → parseHeader s = .error .truncated) ∧
    (∀ b0 b1 b2 b3 rest, s = b0 :: b1 :: b2 :: b3 :: rest →
      (le32 b0 b1 b2 b3 ≠ 0x4D544942#32 → parseHeader s = .error .invalidMagic) ∧
      (le32 b0 b1 b2 b3 = 0x4D544942#32 → s.length < 12 → parseHeader s = .error .truncated) ∧
      (le32 b0 b1 b2 b3 = 0x4D544942#32 → ∀ b4 b5 b6 b7 b8 b9 b10 b11 more,
        rest = b4 :: b5 :: b6 :: b7 :: b8 :: b9 :: b10 :: b11 :: more →
        parseHeader s = .ok (le32 b4 b5 b6 b7, le32 b8 b9 b10 b11)))

/-- R81: `HDR.PARSE` on every state. Its success writes `WIDTH`, `HEIGHT`, `WORD_COUNT` and `STATUS` and nothing else; each
error writes `STATUS` only; each fault is one of a cell it reads that holds no value. That it names the first of several such
bytes is the model's choice (notes/assumptions/8.md, DEDUCED). -/
def Obligations.HdrParseOutcomes : Prop :=
  ∀ s : State,
    (s.hdrLen = none → exec .hdrParse s = .fault (.unsetOperand .hdrLen)) ∧
    ∀ len : Word, s.hdrLen = some len →
      (len.toNat < 4 → exec .hdrParse s = .next { s with status := 2#32 }) ∧
      (4 ≤ len.toNat →
        (∀ k, k < 4 → s.hbuf.FirstUnset 0 k → exec .hdrParse s = .fault (.unsetData .hbuf k)) ∧
        (∀ m, FieldIs s 0 m → m ≠ 0x4D544942#32 → exec .hdrParse s = .next { s with status := 1#32 }) ∧
        (FieldIs s 0 0x4D544942#32 → len.toNat < 12 → exec .hdrParse s = .next { s with status := 2#32 }) ∧
        (FieldIs s 0 0x4D544942#32 → 12 ≤ len.toNat →
          (∀ k, k < 12 → s.hbuf.FirstUnset 4 k → exec .hdrParse s = .fault (.unsetData .hbuf k)) ∧
          (∀ w h, FieldIs s 4 w → FieldIs s 8 h →
            exec .hdrParse s = .next { s with
              width := some w
              height := some h
              wordCount := some (BitVec.ofNat 64 ((w.toNat * h.toNat + 31) / 32))
              status := 0#32 })))

/-- R81: `HDR.PARSE` is `parse_header` applied to `HBUF[0 .. L-1]`, where those bytes hold values. -/
def Obligations.HdrParseIsParseHeader : Prop :=
  ∀ (s : State) (len : Word) (bs : List Byte), s.hdrLen = some len →
    bs.length = min len.toNat 12 → (∀ k < bs.length, s.hbuf.read k = bs[k]?) →
    exec .hdrParse s =
      match parseHeader bs with
      | .error c => .next { s with status := statusWord c }
      | .ok (w, h) => .next { s with
          width := some w
          height := some h
          wordCount := some (BitVec.ofNat 64 (numWords w h))
          status := 0#32 }

/-- R82: with four bytes there, every first four bytes but `42 49 54 4D` are rejected, whatever bytes 4 to 11 hold (no value
too) and whatever the length; those four bytes never are. -/
def Obligations.OnlyTheMagicIsAccepted : Prop :=
  ∀ (s : State) (len : Word) (b0 b1 b2 b3 : Byte), s.hdrLen = some len → 4 ≤ len.toNat →
    s.hbuf.read 0 = some b0 → s.hbuf.read 1 = some b1 → s.hbuf.read 2 = some b2 → s.hbuf.read 3 = some b3 →
    ((b0, b1, b2, b3) ≠ (0x42#8, 0x49#8, 0x54#8, 0x4D#8) → exec .hdrParse s = .next { s with status := 1#32 }) ∧
    ((b0, b1, b2, b3) = (0x42#8, 0x49#8, 0x54#8, 0x4D#8) →
      ∀ t, exec .hdrParse s = .next t → t.status ≠ 1#32)

/-- R83: a header cut short reports `TRUNCATED`, before the magic with fewer than 4 bytes and after it with 4 to 11. -/
def Obligations.ShortHeaderIsTruncated : Prop :=
  ∀ (s : State) (len : Word), s.hdrLen = some len →
    (len.toNat < 4 → exec .hdrParse s = .next { s with status := 2#32 }) ∧
    (4 ≤ len.toNat → len.toNat ≤ 11 → FieldIs s 0 0x4D544942#32 →
      exec .hdrParse s = .next { s with status := 2#32 })

/-! ### HDR.WRITE -/

/-- R87, R88: `HDR.WRITE` writes the twelve bytes of the header and 12 to `HDR_LEN`, and changes nothing else but `STATUS`; it
faults on a dimension that holds no value. That it names `WIDTH` where both hold none is the model's choice
(notes/assumptions/8.md, DEDUCED). -/
def Obligations.HdrWriteOutcomes : Prop :=
  ∀ s : State,
    (s.width = none → exec .hdrWrite s = .fault (.unsetOperand .width)) ∧
    (s.width ≠ none → s.height = none → exec .hdrWrite s = .fault (.unsetOperand .height)) ∧
    ∀ w h : Word, s.width = some w → s.height = some h →
      ∃ t, exec .hdrWrite s = .next t ∧
        t = { s with hbuf := t.hbuf, hdrLen := some 12#32, status := 0#32 } ∧
        ∀ k, t.hbuf.read k =
          if k < 12 then
            [0x42#8, 0x49#8, 0x54#8, 0x4D#8,
             w.extractLsb' 0 8, w.extractLsb' 8 8, w.extractLsb' 16 8, w.extractLsb' 24 8,
             h.extractLsb' 0 8, h.extractLsb' 8 8, h.extractLsb' 16 8, h.extractLsb' 24 8][k]?
          else s.hbuf.read k

/-- R90: the parser reads back what the writer built, as functions and as operations one after the other. -/
def Obligations.HeaderRoundTrip : Prop :=
  (∀ w h : Word, parseHeader (writeHeader w h) = .ok (w, h)) ∧
  (∀ (s : State) (w h : Word), s.width = some w → s.height = some h →
    ∃ t u, exec .hdrWrite s = .next t ∧ exec .hdrParse t = .next u ∧
      u = { t with wordCount := some (BitVec.ofNat 64 (numWords w h)), status := 0#32 } ∧
      u.width = s.width ∧ u.height = s.height)

/-! ### UNPACK -/

/-- R101: `UNPACK` on every state, its errors in their order of priority. Its success writes pixel `i` from bit `i mod 32` of
word `i div 32` for each `i < W*H`, `WORD_COUNT` and `STATUS`, and nothing else. Which of several unset operands or words a
fault names is the model's choice (notes/assumptions/8.md, DEDUCED). -/
def Obligations.UnpackOutcomes : Prop :=
  ∀ s : State,
    (s.width = none → exec .unpack s = .fault (.unsetOperand .width)) ∧
    (s.width ≠ none → s.height = none → exec .unpack s = .fault (.unsetOperand .height)) ∧
    (s.width ≠ none → s.height ≠ none → s.wordAvail = none → exec .unpack s = .fault (.unsetOperand .wordAvail)) ∧
    ∀ (w h : Word) (a : DWord), s.width = some w → s.height = some h → s.wordAvail = some a →
      ((∃ c, s.caps.wordCap = some c ∧ c < a.toNat) → exec .unpack s = .next { s with status := 4#32 }) ∧
      ((∀ c, s.caps.wordCap = some c → a.toNat ≤ c) →
        (a.toNat < numWords w h → exec .unpack s = .next { s with status := 2#32 }) ∧
        (numWords w h ≤ a.toNat →
          ((∃ c, s.caps.pixelCap = some c ∧ c < numPixels w h) → exec .unpack s = .next { s with status := 3#32 }) ∧
          ((∀ c, s.caps.pixelCap = some c → numPixels w h ≤ c) →
            (∀ k, k < numWords w h → s.wmem.FirstUnset 0 k → exec .unpack s = .fault (.unsetData .wmem k)) ∧
            (∀ words : Nat → Word, s.wmem.Holds (numWords w h) words →
              ∃ t, exec .unpack s = .next t ∧
                t = { s with
                  gmem := t.gmem
                  wordCount := some (BitVec.ofNat 64 (numWords w h))
                  status := 0#32 } ∧
                ∀ i, t.gmem.read i =
                  if i < numPixels w h then
                    some (if (words (i / 32)).getLsbD (i % 32) then 0#8 else 255#8)
                  else s.gmem.read i))))

/-- R103: the result of `UNPACK` does not depend on the tail padding bits or on any word at or past the word count. -/
def Obligations.UnpackIgnoresPaddingAndTrailing : Prop :=
  ∀ (s t : State) (m : Memory Word) (w h : Word), s.width = some w → s.height = some h →
    (∀ k < numWords w h, ∃ u v, s.wmem.read k = some u ∧ m.read k = some v ∧
      ∀ b < 32, 32 * k + b < numPixels w h → u.getLsbD b = v.getLsbD b) →
    exec .unpack s = .next t → exec .unpack { s with wmem := m } = .next { t with wmem := m }

/-- Part of R104: every pixel a successful `UNPACK` writes is 0 or 255 (`UnpackOutcomes` says which bit gives which), and pixels
at or past `W*H` keep what they held. -/
def Obligations.UnpackWritesBlackOrWhite : Prop :=
  ∀ (s t : State) (w h : Word), s.width = some w → s.height = some h → exec .unpack s = .next t → t.status = 0#32 →
    (∀ i < numPixels w h, t.gmem.read i = some 0#8 ∨ t.gmem.read i = some 255#8) ∧
    (∀ i, numPixels w h ≤ i → t.gmem.read i = s.gmem.read i)

/-- R100, R107: the row-major loop of the source gives the grid that `UNPACK` computes pixel by pixel. -/
def Obligations.UnpackLoopGivesGrid : Prop :=
  ∀ (words : List Word) (w h : Nat), unpackLoop words w h = unpackGrid words (w * h)

/-! ### PACK -/

/-- R121, R122: `PACK` on every state. Its success writes `NW` words, lane `b` of word `k` set exactly where pixel `32k + b` of
the grid is 0, `WORD_COUNT`, `WORD_AVAIL` and `STATUS`, and nothing else. Which of several unset operands or pixels a fault
names is the model's choice (notes/assumptions/8.md, DEDUCED). -/
def Obligations.PackOutcomes : Prop :=
  ∀ s : State,
    (s.width = none → exec .pack s = .fault (.unsetOperand .width)) ∧
    (s.width ≠ none → s.height = none → exec .pack s = .fault (.unsetOperand .height)) ∧
    ∀ w h : Word, s.width = some w → s.height = some h →
      ((∃ c, s.caps.pixelCap = some c ∧ c < numPixels w h) → exec .pack s = .next { s with status := 3#32 }) ∧
      ((∃ c, s.caps.wordCap = some c ∧ c < numWords w h) → exec .pack s = .next { s with status := 3#32 }) ∧
      ((∀ c, s.caps.pixelCap = some c → numPixels w h ≤ c) → (∀ c, s.caps.wordCap = some c → numWords w h ≤ c) →
        (∀ i, i < numPixels w h → s.gmem.FirstUnset 0 i → exec .pack s = .fault (.unsetData .gmem i)) ∧
        (∀ grid : Nat → Byte, s.gmem.Holds (numPixels w h) grid →
          ∃ t, exec .pack s = .next t ∧
            t = { s with
              wmem := t.wmem
              wordCount := some (BitVec.ofNat 64 (numWords w h))
              wordAvail := some (BitVec.ofNat 64 (numWords w h))
              status := 0#32 } ∧
            (∀ k < numWords w h, ∃ word, t.wmem.read k = some word ∧
              ∀ b < 32, word.getLsbD b = decide (32 * k + b < numPixels w h ∧ grid (32 * k + b) = 0#8)) ∧
            (∀ k, numWords w h ≤ k → t.wmem.read k = s.wmem.read k)))

/-- R123: the words `PACK` writes do not depend on what `WMEM` held, and their tail padding bits are zero. -/
def Obligations.PackIgnoresOldWords : Prop :=
  ∀ (s t : State) (m : Memory Word) (w h : Word), s.width = some w → s.height = some h →
    exec .pack s = .next t → t.status = 0#32 →
    ∃ u, exec .pack { s with wmem := m } = .next u ∧ u.status = 0#32 ∧
      ∀ k < numWords w h, u.wmem.read k = t.wmem.read k ∧
        ∀ word, t.wmem.read k = some word → ∀ b < 32, numPixels w h ≤ 32 * k + b → word.getLsbD b = false

/-- R124: a pixel packs as white for every non-zero display value, so `PACK` answers the same words where any non-zero values
are exchanged for others. -/
def Obligations.PackSeesOnlyZeroAndNonZero : Prop :=
  ∀ (s t : State) (m : Memory Byte) (w h : Word), s.width = some w → s.height = some h →
    (∀ i < numPixels w h, ∃ c d, s.gmem.read i = some c ∧ m.read i = some d ∧ (c = 0#8 ↔ d = 0#8)) →
    exec .pack s = .next t → exec .pack { s with gmem := m } = .next { t with gmem := m }

/-- R120, R129: the row-major loop of `BitSet` over zeroed words gives the words that `PACK` computes one by one. -/
def Obligations.PackLoopGivesWords : Prop :=
  ∀ (grid : List Byte) (w h : Nat), grid.length = w * h → packLoop grid w h = packWords grid (ceilWords (w * h))

/-- R128: the packed words of an all-black and of an all-white grid, and the unpacked grid of all-zero words. -/
def Obligations.PolarityLaw : Prop :=
  ∀ w h : Word,
    (∀ k < numWords w h,
      (packWords (List.replicate (numPixels w h) 0#8) (numWords w h))[k]? =
        some (if k + 1 < numWords w h ∨ padBits w h = 0 then 0xFFFFFFFF#32
          else BitVec.ofNat 32 (2 ^ (32 - padBits w h) - 1))) ∧
    (∀ grid : List Byte, grid.length = numPixels w h → (∀ d ∈ grid, d ≠ 0#8) →
      packWords grid (numWords w h) = List.replicate (numWords w h) 0#32) ∧
    unpackGrid (List.replicate (numWords w h) 0#32) (numPixels w h) = List.replicate (numPixels w h) 255#8

/-- R127: unpacking a packed grid gives the grid with every non-zero value replaced by 255, so a grid over 0 and 255 comes back
as it was; as functions, and as `PACK` followed by `UNPACK`. -/
def Obligations.PackUnpackRoundTrip : Prop :=
  (∀ (w h : Word) (grid : List Byte), grid.length = numPixels w h →
    unpackGrid (packWords grid (numWords w h)) (numPixels w h) = grid.map (fun d => if d = 0#8 then 0#8 else 255#8) ∧
    ((∀ d ∈ grid, d = 0#8 ∨ d = 255#8) → unpackGrid (packWords grid (numWords w h)) (numPixels w h) = grid)) ∧
  (∀ (s t : State) (w h : Word), s.width = some w → s.height = some h →
    exec .pack s = .next t → t.status = 0#32 →
    ∃ u, exec .unpack t = .next u ∧ u.status = 0#32 ∧
      (∀ i < numPixels w h, ∃ d, s.gmem.read i = some d ∧
        u.gmem.read i = some (if d = 0#8 then 0#8 else 255#8)) ∧
      ((∀ i < numPixels w h, s.gmem.read i = some 0#8 ∨ s.gmem.read i = some 255#8) →
        ∀ i, u.gmem.read i = s.gmem.read i))

/-! ### All four operations -/

/-- Part of R158: an operation is never refused, and it faults only on a register it reads, or a cell of the buffer it reads, that
holds no value. (Which cells of that buffer it reads, the four `Outcomes` statements say.) -/
def Obligations.ExecStopsOnlyOnUnsetCells : Prop :=
  ∀ (i : Instr) (s : State),
    (∀ r, exec i s ≠ .refused r) ∧
    ∀ f, exec i s = .fault f →
      (∃ r, f = .unsetOperand r ∧ readsReg i r = true ∧ RegUnset s r) ∨
      (∃ b k, f = .unsetData b k ∧ readsBuffer i b = true ∧ CellUnset s b k)

/-- R173: an operation whose operands the host has written never faults: it answers a next state, whatever the values. -/
def Obligations.WrittenOperandsNeverFault : Prop :=
  ∀ s : State,
    (∀ len : Word, s.hdrLen = some len → (∀ k < min len.toNat 12, (s.hbuf.read k).isSome) →
      ∃ t, exec .hdrParse s = .next t) ∧
    (s.width.isSome → s.height.isSome → ∃ t, exec .hdrWrite s = .next t) ∧
    (∀ (w h : Word) (a : DWord), s.width = some w → s.height = some h → s.wordAvail = some a →
      (numWords w h ≤ a.toNat → ∀ k < numWords w h, (s.wmem.read k).isSome) → ∃ t, exec .unpack s = .next t) ∧
    (∀ w h : Word, s.width = some w → s.height = some h → (∀ i < numPixels w h, (s.gmem.read i).isSome) →
      ∃ t, exec .pack s = .next t)

/-- R156: an operation that does not end with `OK` changes `STATUS` and nothing else; the codes an operation leaves are 0 to
4. -/
def Obligations.ErrorsChangeOnlyStatus : Prop :=
  ∀ (i : Instr) (s t : State), exec i s = .next t →
    t.status ∈ [0#32, 1#32, 2#32, 3#32, 4#32] ∧
    (t.status ≠ 0#32 → t = { s with status := t.status })

/-- R54, the column "writes": what each operation leaves unchanged, whichever way it answers a next state. -/
def Obligations.OperationFrames : Prop :=
  ∀ s t : State,
    (exec .hdrParse s = .next t →
      t = { s with width := t.width, height := t.height, wordCount := t.wordCount, status := t.status }) ∧
    (exec .hdrWrite s = .next t →
      t = { s with hbuf := t.hbuf, hdrLen := t.hdrLen, status := t.status } ∧
      ∀ k, 12 ≤ k → t.hbuf.read k = s.hbuf.read k) ∧
    (exec .unpack s = .next t →
      t = { s with gmem := t.gmem, wordCount := t.wordCount, status := t.status } ∧
      ∀ w h, s.width = some w → s.height = some h → ∀ i, numPixels w h ≤ i → t.gmem.read i = s.gmem.read i) ∧
    (exec .pack s = .next t →
      t = { s with wmem := t.wmem, wordCount := t.wordCount, wordAvail := t.wordAvail, status := t.status } ∧
      ∀ w h, s.width = some w → s.height = some h → ∀ k, numWords w h ≤ k → t.wmem.read k = s.wmem.read k)

/-- R54, the column "reads": two states that agree on an operation's operands (and on the capacities) get the same status and
the same results. -/
def Obligations.OperationsReadOnlyOperands : Prop :=
  ∀ s s' t : State, s'.caps = s.caps →
    (s'.hdrLen = s.hdrLen → (∀ k < 12, s'.hbuf.read k = s.hbuf.read k) → exec .hdrParse s = .next t →
      ∃ t', exec .hdrParse s' = .next t' ∧ t'.status = t.status ∧
        (t.status = 0#32 → t'.width = t.width ∧ t'.height = t.height ∧ t'.wordCount = t.wordCount)) ∧
    (s'.width = s.width → s'.height = s.height → exec .hdrWrite s = .next t →
      ∃ t', exec .hdrWrite s' = .next t' ∧ t'.status = t.status ∧ t'.hdrLen = t.hdrLen ∧
        ∀ k < 12, t'.hbuf.read k = t.hbuf.read k) ∧
    (∀ w h, s.width = some w → s.height = some h →
      s'.width = s.width → s'.height = s.height → s'.wordAvail = s.wordAvail →
      (∀ k < numWords w h, s'.wmem.read k = s.wmem.read k) → exec .unpack s = .next t →
      ∃ t', exec .unpack s' = .next t' ∧ t'.status = t.status ∧
        (t.status = 0#32 → t'.wordCount = t.wordCount ∧ ∀ i < numPixels w h, t'.gmem.read i = t.gmem.read i)) ∧
    (∀ w h, s.width = some w → s.height = some h →
      s'.width = s.width → s'.height = s.height →
      (∀ i < numPixels w h, s'.gmem.read i = s.gmem.read i) → exec .pack s = .next t →
      ∃ t', exec .pack s' = .next t' ∧ t'.status = t.status ∧
        (t.status = 0#32 → t'.wordCount = t.wordCount ∧ t'.wordAvail = t.wordAvail ∧
          ∀ k < numWords w h, t'.wmem.read k = t.wmem.read k))

/-- R53: issuing the same operation again at once writes the same values again: it leaves the state as it is. -/
def Obligations.RepeatedOperationChangesNothing : Prop :=
  ∀ (i : Instr) (s t : State), exec i s = .next t → exec i t = .next t

/-- R157: no error is sticky: an operation does not depend on the code of the last one, and that code stays in `STATUS` until
the next `CMD` write (or a reset). -/
def Obligations.StatusIsNotSticky : Prop :=
  (∀ (i : Instr) (s : State) (v : Word), exec i { s with status := v } = exec i s) ∧
  (∀ (s t : State) (f : HostForm), nextForm s = some f → (∀ c, f ≠ .cmd c) → f ≠ .reset →
    step s = .next t → t.status = s.status)

/-- R24: `STATUS` and `WORD_COUNT` are the block's to write: a line that is no `CMD` write and no reset changes neither. -/
def Obligations.HostNeverWritesReadOnlyRegisters : Prop :=
  ∀ (s t : State) (f : HostForm), nextForm s = some f → (∀ c, f ≠ .cmd c) → f ≠ .reset →
    step s = .next t → t.status = s.status ∧ t.wordCount = s.wordCount

/-- R152: with both capacities unbounded no operation reports `CAPACITY`, and `UNPACK` never reports `BAD_COMMAND`. -/
def Obligations.UnboundedNeverReportsCapacity : Prop :=
  ∀ (i : Instr) (s t : State), s.caps = Config.unbounded → exec i s = .next t →
    t.status ≠ 3#32 ∧ t.status ≠ 4#32

/-! ### Host access -/

/-- R24, R35: the host's register writes: four registers store the value, two ignore it, and nothing else changes. -/
def Obligations.HostRegisterWrites : Prop :=
  ∀ (s : State) (v : Word) (u : DWord),
    (nextForm s = some (.wrReg 1 (.d32 v)) → step s = .next (advance s)) ∧
    (nextForm s = some (.wrReg 2 (.d32 v)) → step s = .next { advance s with width := some v }) ∧
    (nextForm s = some (.wrReg 3 (.d32 v)) → step s = .next { advance s with height := some v }) ∧
    (nextForm s = some (.wrReg 4 (.d32 v)) → step s = .next { advance s with hdrLen := some v }) ∧
    (nextForm s = some (.wrReg 5 (.d64 u)) → step s = .next { advance s with wordAvail := some u }) ∧
    (nextForm s = some (.wrReg 6 (.d64 u)) → step s = .next (advance s))

/-- R24, R25, R35: a host read returns the register's content, `CMD` reads 0, and a register that holds no value is a model
fault; a read changes nothing of the block. -/
def Obligations.HostRegisterReads : Prop :=
  ∀ s : State,
    (nextForm s = some (.rdReg 0) → step s = .next { advance s with hostReads := .d32 0#32 :: s.hostReads }) ∧
    (nextForm s = some (.rdReg 1) → step s = .next { advance s with hostReads := .d32 s.status :: s.hostReads }) ∧
    (∀ v, nextForm s = some (.rdReg 2) → s.width = some v →
      step s = .next { advance s with hostReads := .d32 v :: s.hostReads }) ∧
    (∀ v, nextForm s = some (.rdReg 3) → s.height = some v →
      step s = .next { advance s with hostReads := .d32 v :: s.hostReads }) ∧
    (∀ v, nextForm s = some (.rdReg 4) → s.hdrLen = some v →
      step s = .next { advance s with hostReads := .d32 v :: s.hostReads }) ∧
    (∀ v, nextForm s = some (.rdReg 5) → s.wordAvail = some v →
      step s = .next { advance s with hostReads := .d64 v :: s.hostReads }) ∧
    (∀ v, nextForm s = some (.rdReg 6) → s.wordCount = some v →
      step s = .next { advance s with hostReads := .d64 v :: s.hostReads }) ∧
    (∀ n r, nextForm s = some (.rdReg n) → regOfNum n = some r → RegUnset s r →
      step s = .fault (.unsetOperand r))

/-- R31 to R33, R35: a host write of buffer elements inside the capacity stores them, one after another from its index on, and
leaves every other element of the buffer and everything else unchanged. -/
def Obligations.HostBufferWrites : Prop :=
  ∀ (s : State) (k : Nat) (bs : List Byte) (ws : List Word),
    (nextForm s = some (.wrHbuf k bs) → k + bs.length ≤ 12 →
      ∃ t, step s = .next t ∧ t = { advance s with hbuf := t.hbuf } ∧
        (∀ j, t.hbuf.read j = if k ≤ j ∧ j < k + bs.length then bs[j - k]? else s.hbuf.read j)) ∧
    (nextForm s = some (.wrWmem k ws) → (∀ c, s.caps.wordCap = some c → k + ws.length ≤ c) →
      ∃ t, step s = .next t ∧ t = { advance s with wmem := t.wmem } ∧
        (∀ j, t.wmem.read j = if k ≤ j ∧ j < k + ws.length then ws[j - k]? else s.wmem.read j)) ∧
    (nextForm s = some (.wrGmem k bs) → (∀ c, s.caps.pixelCap = some c → k + bs.length ≤ c) →
      ∃ t, step s = .next t ∧ t = { advance s with gmem := t.gmem } ∧
        (∀ j, t.gmem.read j = if k ≤ j ∧ j < k + bs.length then bs[j - k]? else s.gmem.read j))

/-- R31 to R33: a host read of a buffer element inside the capacity returns what it holds and changes nothing of the block; one
that holds no value is a model fault (the model's choice, notes/assumptions/5.md). -/
def Obligations.HostBufferReads : Prop :=
  ∀ (s : State) (k : Nat),
    (nextForm s = some (.rdHbuf k) → k < 12 →
      (∀ v, s.hbuf.read k = some v → step s = .next { advance s with hostReads := .d8 v :: s.hostReads }) ∧
      (s.hbuf.read k = none → step s = .fault (.unsetData .hbuf k))) ∧
    (nextForm s = some (.rdWmem k) → (∀ c, s.caps.wordCap = some c → k < c) →
      (∀ v, s.wmem.read k = some v → step s = .next { advance s with hostReads := .d32 v :: s.hostReads }) ∧
      (s.wmem.read k = none → step s = .fault (.unsetData .wmem k))) ∧
    (nextForm s = some (.rdGmem k) → (∀ c, s.caps.pixelCap = some c → k < c) →
      (∀ v, s.gmem.read k = some v → step s = .next { advance s with hostReads := .d8 v :: s.hostReads }) ∧
      (s.gmem.read k = none → step s = .fault (.unsetData .gmem k)))

/-- R159: a line of the host's program is refused exactly where it is ill-formed: a reserved register number, an element outside
the capacity, a value of another width than the register's. Three points are the model's choices: the refusal of another width
(notes/assumptions/6.md, DESIGN CHOICE), and that a write partly outside is refused as a whole and an empty write never
(notes/assumptions/7.md, DESIGN CHOICE). The steps that hand over a whole result are left out: they are not accesses the host
writes down. -/
def Obligations.RefusedExactlyWhenIllFormed : Prop :=
  ∀ (s : State) (f : HostForm), nextForm s = some f → f ≠ .handGrid → f ≠ .emitStream →
    ((∃ r, step s = .refused r) ↔ f.wf s.caps = false)

/-- R148: the host's branch on `STATUS.CODE`. -/
def Obligations.HostBranchesOnStatus : Prop :=
  ∀ (s : State) (l : Nat), nextForm s = some (.bneStatus l) →
    step s = .next { s with hostPos := if s.status.extractLsb' 0 3 = 0#3 then s.hostPos + 1 else l }

/-- R170, R172: the reset input between operations leaves the block as R170 says. That it is a line of the host's program, and that
the capacities stay what they are, is the model's choice (notes/assumptions/14.md, DEDUCED). -/
def Obligations.ResetInputClearsTheBlock : Prop :=
  ∀ s : State, nextForm s = some .reset →
    ∃ t, step s = .next t ∧ t.caps = s.caps ∧ t.status = 0x00000007#32 ∧
      (∀ r, r ≠ .cmd → r ≠ .status → RegUnset t r) ∧ (∀ b k, CellUnset t b k)

/-! ### Invariants -/

/-- Every step keeps the invariant: canonical buffers inside their capacities, a legal `STATUS`, a `WORD_COUNT` that some pair
of dimensions gives. -/
def Obligations.StepKeepsInvariant : Prop :=
  ∀ s t : State, s.Inv → step s = .next t → t.Inv

/-- No step leaves a register or a buffer cell without a value that held one, unless it is the reset input (R34: "nothing takes a
value away"). That no step changes the capacities, reset included, is the model's choice, no part of R34
(notes/assumptions/2.md, DESIGN CHOICE, and notes/assumptions/14.md, DEDUCED; R8 calls them parameters). -/
def Obligations.NothingTakesAValueAway : Prop :=
  ∀ s t : State, step s = .next t →
    t.caps = s.caps ∧
    (nextForm s ≠ some .reset →
      (∀ r, RegUnset t r → RegUnset s r) ∧ (∀ b k, CellUnset t b k → CellUnset s b k))

/-! ### Streams -/

/-- R48: packed bit `i` of the words is bit `i mod 8` of stream byte `12 + i div 8`. -/
def Obligations.PackedBitInStreamByte : Prop :=
  ∀ (header : List Byte) (words : List Word) (i : Nat), header.length = 12 → i < 32 * words.length →
    ∃ byte, (header ++ words.flatMap le32Bytes)[12 + i / 8]? = some byte ∧ byte.getLsbD (i % 8) = bitGet words i

/-- R140 to R143: `DECODE.STREAM` run from any state ends, never stops on a fault or a refusal, and hands over the grid or
surfaces the first failure, in the order header, host capacity, truncation, pixel capacity. How the host loads the words, and
what its `CAPACITY` stop leaves, is the model's choice (notes/assumptions/9.md, DESIGN CHOICE and DEDUCED). -/
def Obligations.DecodeStreamResult : Prop :=
  ∀ (s : State) (bytes : List Byte), s.hostProg = decodeStream bytes → s.hostPos = 0 →
    ∃ t, Host.Core.run Sys2Proof.core 11 s = .next t ∧
      t.hostResult = some
        (match parseHeader bytes with
        | .error c => .failed (codeBits c)
        | .ok (w, h) =>
          if exceeds (min ((bytes.length - 12) / 4) (numWords w h)) s.caps.wordCap then .failed 3#3
          else if (bytes.length - 12) / 4 < numWords w h then .failed 2#3
          else if exceeds (numPixels w h) s.caps.pixelCap then .failed 3#3
          else .grid w h (unpackGrid (streamWords bytes (numWords w h)) (numPixels w h)))

/-- R142: with the header whole and the magic right, `DECODE.STREAM` reports `TRUNCATED` exactly for a stream shorter than
`12 + 4 * NW` bytes (capacities unbounded). -/
def Obligations.TruncatedExactlyWhenShort : Prop :=
  ∀ (s : State) (bytes : List Byte) (w h : Word), s.caps = Config.unbounded →
    s.hostProg = decodeStream bytes → s.hostPos = 0 → parseHeader bytes = .ok (w, h) →
    ∃ t, Host.Core.run Sys2Proof.core 11 s = .next t ∧
      (t.hostResult = some (.failed 2#3) ↔ bytes.length < 12 + 4 * numWords w h)

/-- R144, R145: `ENCODE.STREAM` run from any state on a grid of `W*H` pixels that fits `GMEM` ends with the header and the
packed words as bytes, `12 + 4 * NW` of them, or surfaces `CAPACITY` where the words do not fit. A grid that does not fit
`GMEM` is `EncodeStreamAbovePixelCap`'s. The sequence as a host program is the model's (notes/assumptions/9.md, DESIGN
CHOICE). -/
def Obligations.EncodeStreamResult : Prop :=
  ∀ (s : State) (w h : Word) (grid : List Byte), s.hostProg = encodeStream w h grid → s.hostPos = 0 →
    grid.length = numPixels w h → exceeds (numPixels w h) s.caps.pixelCap = false →
    ∃ t, Host.Core.run Sys2Proof.core 10 s = .next t ∧
      (exceeds (numWords w h) s.caps.wordCap = true → t.hostResult = some (.failed 3#3)) ∧
      (exceeds (numWords w h) s.caps.wordCap = false → ∃ out, t.hostResult = some (.stream out) ∧
        out = writeHeader w h ++ (packWords grid (numWords w h)).flatMap le32Bytes ∧
        out.length = 12 + 4 * numWords w h)

/-- R35, R159: `ENCODE.STREAM` run from any state on a grid of `W*H` pixels that does not fit `GMEM` is refused at the host's
write of the grid. That this comes before `PACK` could report `CAPACITY` (notes/assumptions/10.md, DEDUCED), and that no part
of the write lands (notes/assumptions/7.md, DESIGN CHOICE), is the model's choice. -/
def Obligations.EncodeStreamAbovePixelCap : Prop :=
  ∀ (s : State) (w h : Word) (grid : List Byte), s.hostProg = encodeStream w h grid → s.hostPos = 0 →
    grid.length = numPixels w h → exceeds (numPixels w h) s.caps.pixelCap = true →
    ∃ t u, step s = .next t ∧ step t = .next u ∧ step u = .refused (.outsideCapacity .gmem 0) ∧
      Host.Core.run Sys2Proof.core 10 s = .refused (.outsideCapacity .gmem 0)

/-- R146: encoding a grid over 0 and 255 and decoding the stream hands back the dimensions and the grid, with any trailing
bytes appended too (capacities unbounded). -/
def Obligations.StreamRoundTrip : Prop :=
  ∀ (s : State) (w h : Word) (grid tail : List Byte), s.caps = Config.unbounded →
    s.hostProg = encodeStream w h grid → s.hostPos = 0 → grid.length = numPixels w h →
    (∀ d ∈ grid, d = 0#8 ∨ d = 255#8) →
    ∃ t out u, Host.Core.run Sys2Proof.core 10 s = .next t ∧ t.hostResult = some (.stream out) ∧
      Host.Core.run Sys2Proof.core 11 { t with hostProg := decodeStream (out ++ tail), hostPos := 0 } = .next u ∧
      u.hostResult = some (.grid w h grid)
end

