-- ==== Sys2Proof/Laws/Memory.lean ====
section
/-! SUPPORT. What the buffer operations do: reading after writing, reading a range, and the canonical form. -/

namespace Sys2Proof.Machine

open Sys2Proof

section Lists

variable {α : Type}

@[simp] theorem Memory.read_nil (b : Nat) : Memory.read ([] : Memory α) b = none := rfl

@[simp] theorem Memory.read_cons (k : Nat) (v : α) (m : Memory α) (b : Nat) :
    Memory.read ((k, v) :: m) b = if k = b then some v else m.read b := rfl

theorem Memory.read_append (m n : Memory α) (b : Nat) :
    Memory.read (m ++ n) b = (m.read b).or (n.read b) := by
  induction m with
  | nil => simp
  | cons p m ih =>
    obtain ⟨k, v⟩ := p
    simp only [List.cons_append, Memory.read_cons]
    split <;> simp_all

/-- Filtering by index keeps exactly the cells whose index passes. -/
theorem Memory.read_filter (m : Memory α) (q : Nat → Bool) (b : Nat) :
    Memory.read (m.filter (fun p => q p.1)) b = if q b then m.read b else none := by
  induction m with
  | nil => simp
  | cons p m ih =>
    obtain ⟨k, v⟩ := p
    by_cases hk : k = b
    · subst hk; cases hq : q k <;> simp [hq, ih]
    · cases hq : q k <;> simp [hq, hk, ih]

theorem read_cellsAt (a : Nat) (vs : List α) (b : Nat) :
    Memory.read (cellsAt a vs) b = if a ≤ b then vs[b - a]? else none := by
  induction vs generalizing a with
  | nil => simp [cellsAt]
  | cons v vs ih =>
    simp only [cellsAt, Memory.read_cons, ih]
    by_cases h : a = b
    · simp [h]
    · by_cases h' : a ≤ b
      · have e : b - a = (b - (a + 1)) + 1 := by omega
        simp only [h, h', if_true, if_false, e, List.getElem?_cons_succ]
        simp; omega
      · have : ¬ a + 1 ≤ b := by omega
        simp [h, h', this]

/-- A cell after a write: a written cell holds its new value, every other cell what it held before. -/
theorem Memory.read_writeRange (m : Memory α) (a : Nat) (vs : List α) (b : Nat) :
    (m.writeRange a vs).read b = if a ≤ b ∧ b < a + vs.length then vs[b - a]? else m.read b := by
  have h1 := Memory.read_filter m (fun k => decide (k < a)) b
  have h2 := Memory.read_filter m (fun k => decide (a + vs.length ≤ k)) b
  simp only [Memory.writeRange, Memory.read_append, h1, h2, read_cellsAt]
  by_cases hab : a ≤ b
  · by_cases hb : b < a + vs.length
    · have : b - a < vs.length := by omega
      simp [hab, hb, show ¬ b < a by omega, List.getElem?_eq_getElem this]
    · simp [hab, hb, show ¬ b < a by omega, List.getElem?_eq_none (show vs.length ≤ b - a by omega),
        show a + vs.length ≤ b by omega]
  · simp [hab, show b < a by omega, show ¬ a + vs.length ≤ b by omega]

theorem Memory.read_writeRange_inside (m : Memory α) {a : Nat} {vs : List α} {i : Nat} (h : i < vs.length) :
    (m.writeRange a vs).read (a + i) = some vs[i] := by
  rw [Memory.read_writeRange, if_pos ⟨by omega, by omega⟩, Nat.add_sub_cancel_left, List.getElem?_eq_getElem h]

theorem Memory.read_writeRange_outside (m : Memory α) {a : Nat} {vs : List α} {b : Nat}
    (h : b < a ∨ a + vs.length ≤ b) : (m.writeRange a vs).read b = m.read b := by
  rw [Memory.read_writeRange, if_neg (by omega)]

/-- Writing the same values to the same cells a second time changes nothing. -/
theorem Memory.writeRange_writeRange (m : Memory α) (a : Nat) (vs ws : List α) (h : vs.length = ws.length) :
    (m.writeRange a vs).writeRange a ws = m.writeRange a ws := by
  have hlt : ∀ (k : Nat) (us : List α), k + us.length ≤ a + vs.length → a ≤ k →
      (cellsAt k us).filter (fun p => decide (p.1 < a)) = [] ∧
      (cellsAt k us).filter (fun p => decide (a + ws.length ≤ p.1)) = [] := by
    intro k us
    induction us generalizing k with
    | nil => simp [cellsAt]
    | cons u us ih =>
      intro h1 h2
      simp only [List.length_cons] at h1
      have := ih (k + 1) (by omega) (by omega)
      simp only [cellsAt, List.filter_cons]
      simp [show ¬ k < a by omega, show ¬ a + ws.length ≤ k by omega, this]
  have hc := hlt a vs (Nat.le_refl _) (Nat.le_refl _)
  unfold Memory.writeRange
  simp only [List.filter_append, hc.1, hc.2, List.filter_filter, List.append_nil, h]
  have e1 : (m.filter fun p => decide (p.1 < a) && decide (a + ws.length ≤ p.1)) = [] := by
    simp; intros; omega
  have e2 : (m.filter fun p => decide (a + ws.length ≤ p.1) && decide (p.1 < a)) = [] := by
    simp; intros; omega
  simp [e1, e2]

/-! ### The canonical form -/

theorem cellsAt_mem {a : Nat} {vs : List α} {p : Nat × α} (h : p ∈ cellsAt a vs) : a ≤ p.1 ∧ p.1 < a + vs.length := by
  induction vs generalizing a with
  | nil => simp [cellsAt] at h
  | cons v vs ih =>
    simp only [cellsAt, List.mem_cons] at h
    rcases h with rfl | h
    · simp
    · have := ih h
      simp only [List.length_cons]
      omega

theorem cellsAt_wf (a : Nat) (vs : List α) : Memory.wf (cellsAt a vs) := by
  induction vs generalizing a with
  | nil => exact List.Pairwise.nil
  | cons v vs ih =>
    refine List.Pairwise.cons (fun p hp => ?_) (ih (a + 1))
    have := cellsAt_mem hp
    simp only
    omega

/-- A write keeps the canonical form. -/
theorem Memory.writeRange_wf {m : Memory α} (h : m.wf) (a : Nat) (vs : List α) : (m.writeRange a vs).wf := by
  unfold Memory.writeRange Memory.wf
  rw [List.pairwise_append, List.pairwise_append]
  refine ⟨⟨h.filter _, cellsAt_wf a vs, ?_⟩, h.filter _, ?_⟩
  · intro p hp q hq
    have := cellsAt_mem hq
    simp only [List.mem_filter, decide_eq_true_eq] at hp
    omega
  · intro p hp q hq
    simp only [List.mem_append, List.mem_filter, decide_eq_true_eq] at hp hq
    rcases hp with hp | hp
    · omega
    · have := cellsAt_mem hp
      omega

theorem Memory.read_eq_none_of_lt {m : Memory α} {b : Nat} (h : ∀ p ∈ m, b < p.1) : m.read b = none := by
  induction m with
  | nil => rfl
  | cons p m ih =>
    obtain ⟨k, v⟩ := p
    have hk := h (k, v) (by simp)
    have := ih fun q hq => h q (List.mem_cons_of_mem _ hq)
    simp [this, show k ≠ b by simp only at hk; omega]

/-- Two buffers in canonical form that read alike at every index are the same list. -/
theorem Memory.ext_read {m n : Memory α} (hm : m.wf) (hn : n.wf) (h : ∀ b, m.read b = n.read b) : m = n := by
  induction m generalizing n with
  | nil =>
    cases n with
    | nil => rfl
    | cons q n => obtain ⟨l, w⟩ := q; have := h l; simp at this
  | cons p m ih =>
    obtain ⟨k, v⟩ := p
    cases n with
    | nil => have := h k; simp at this
    | cons q n =>
      obtain ⟨l, w⟩ := q
      rw [Memory.wf, List.pairwise_cons] at hm hn
      have hkl : k = l := by
        rcases Nat.lt_trichotomy k l with hlt | heq | hlt
        · have e := h k
          have : Memory.read n k = none := Memory.read_eq_none_of_lt fun q hq => by have := hn.1 q hq; simp only at this; omega
          simp [this, show ¬ l = k by omega] at e
        · exact heq
        · have e := h l
          have : Memory.read m l = none := Memory.read_eq_none_of_lt fun q hq => by have := hm.1 q hq; simp only at this; omega
          simp [this, show ¬ k = l by omega] at e
      subst hkl
      have hv : v = w := by simpa using h k
      subst hv
      refine congrArg _ (ih hm.2 hn.2 fun b => ?_)
      by_cases hb : k = b
      · subst hb
        rw [Memory.read_eq_none_of_lt fun q hq => hm.1 q hq, Memory.read_eq_none_of_lt fun q hq => hn.1 q hq]
      · simpa [hb] using h b

/-! ### Reading a range -/

/-- Every cell of the range holds a value: the range reads as those values, in order. -/
theorem Memory.readRange_ok_iff (m : Memory α) (a n : Nat) (vs : List α) :
    m.readRange a n = .ok vs ↔ vs.length = n ∧ ∀ i < n, m.read (a + i) = vs[i]? := by
  induction n generalizing a vs with
  | zero => simp [Memory.readRange, eq_comm]
  | succ n ih =>
    cases vs with
    | nil =>
      simp only [Memory.readRange]
      cases m.read a <;> simp
      split <;> simp
    | cons v vs =>
      have key := ih (a + 1) vs
      constructor
      · intro h
        simp only [Memory.readRange] at h
        cases hr : m.read a with
        | none => simp [hr] at h
        | some x =>
          simp only [hr] at h
          cases hs : m.readRange (a + 1) n with
          | error k => simp [hs] at h
          | ok us =>
            simp only [hs, Except.ok.injEq, List.cons.injEq] at h
            obtain ⟨rfl, rfl⟩ := h
            have := (ih (a + 1) us).1 hs
            refine ⟨by simp [this.1], fun i hi => ?_⟩
            cases i with
            | zero => simpa using hr
            | succ i =>
              have h2 := this.2 i (by omega)
              simpa [show a + (i + 1) = a + 1 + i by omega] using h2
      · rintro ⟨hl, hv⟩
        have h0 : m.read a = some v := by simpa using hv 0 (by omega)
        have hs : m.readRange (a + 1) n = .ok vs := key.2 ⟨by simpa using hl, fun i hi => by
          have := hv (i + 1) (by omega)
          simpa [show a + (i + 1) = a + 1 + i by omega] using this⟩
        simp [Memory.readRange, h0, hs]

/-- The range reads as an error exactly at its first cell that holds no value. -/
theorem Memory.readRange_error_iff (m : Memory α) (a n k : Nat) :
    m.readRange a n = .error k ↔ a ≤ k ∧ k < a + n ∧ m.read k = none ∧ ∀ j, a ≤ j → j < k → (m.read j).isSome := by
  induction n generalizing a with
  | zero => simp [Memory.readRange]; omega
  | succ n ih =>
    simp only [Memory.readRange]
    cases hr : m.read a with
    | none =>
      simp only [Except.error.injEq]
      constructor
      · rintro rfl
        exact ⟨Nat.le_refl _, by omega, hr, fun j h1 h2 => by omega⟩
      · rintro ⟨h1, _, _, h4⟩
        by_contra hne
        have := h4 a (Nat.le_refl _) (by omega)
        simp [hr] at this
    | some v =>
      have hi := ih (a + 1)
      have step : (match m.readRange (a + 1) n with
            | .error k => (.error k : Except Nat (List α))
            | .ok vs => .ok (v :: vs)) = .error k ↔ m.readRange (a + 1) n = .error k := by
        cases m.readRange (a + 1) n <;> simp
      refine Iff.trans step (Iff.trans hi ?_)
      constructor
      · rintro ⟨h1, h2, h3, h4⟩
        refine ⟨by omega, by omega, h3, fun j hj1 hj2 => ?_⟩
        by_cases e : j = a
        · simp [e, hr]
        · exact h4 j (by omega) hj2
      · rintro ⟨h1, h2, h3, h4⟩
        have : k ≠ a := by rintro rfl; simp [hr] at h3
        exact ⟨by omega, by omega, h3, fun j hj1 hj2 => h4 j (by omega) hj2⟩

/-- A range whose cells hold the values of `f` reads as the list of them. -/
theorem Memory.readRange_map (m : Memory α) (a n : Nat) (f : Nat → α) (h : ∀ i < n, m.read (a + i) = some (f i)) :
    m.readRange a n = .ok ((List.range n).map f) := by
  rw [Memory.readRange_ok_iff]
  exact ⟨by simp, fun i hi => by simp [h i hi, hi]⟩

/-- Reading a range right after it was written gives the values written. -/
theorem Memory.readRange_writeRange (m : Memory α) (a : Nat) (vs : List α) :
    (m.writeRange a vs).readRange a vs.length = .ok vs := by
  rw [Memory.readRange_ok_iff]
  refine ⟨rfl, fun i hi => ?_⟩
  rw [Memory.read_writeRange_inside m hi, List.getElem?_eq_getElem hi]

/-- A range that a write does not touch reads as before. -/
theorem Memory.readRange_congr (m m' : Memory α) (a n : Nat) (h : ∀ i < n, m.read (a + i) = m'.read (a + i)) :
    m.readRange a n = m'.readRange a n := by
  induction n generalizing a with
  | zero => rfl
  | succ n ih =>
    have h0 : m.read a = m'.read a := h 0 (by omega)
    have hs := ih (a + 1) fun i hi => by
      have := h (i + 1) (by omega)
      rwa [show a + (i + 1) = a + 1 + i by omega] at this
    simp only [Memory.readRange, h0, hs]

end Lists

end Sys2Proof.Machine
end

