-- ==== Sys2Proof/Laws/Operands.lean ====
section
/-! SUPPORT. What byte assembly, packed bits, and the register-independent functions of the four operations compute. -/

namespace Sys2Proof.Machine

open Sys2Proof

/-! ### Byte assembly (R12) -/

theorem le32_getLsbD (b0 b1 b2 b3 : Byte) (i : Nat) :
    (le32 b0 b1 b2 b3).getLsbD i =
      if i < 8 then b0.getLsbD i else if i < 16 then b1.getLsbD (i - 8)
      else if i < 24 then b2.getLsbD (i - 16) else if i < 32 then b3.getLsbD (i - 24) else false := by
  simp only [le32, BitVec.getLsbD_or, BitVec.getLsbD_shiftLeft, BitVec.getLsbD_setWidth]
  by_cases h1 : i < 8
  · simp [h1, show i < 16 by omega, show i < 24 by omega, show i < 32 by omega]
  · have e0 : b0.getLsbD i = false := BitVec.getLsbD_of_ge _ _ (by omega)
    by_cases h2 : i < 16
    · simp [h1, h2, e0, show i < 24 by omega, show i < 32 by omega, show i - 8 < 32 by omega]
    · have e1 : b1.getLsbD (i - 8) = false := BitVec.getLsbD_of_ge _ _ (by omega)
      by_cases h3 : i < 24
      · simp [h1, h2, h3, e0, e1, show i < 32 by omega, show i - 16 < 32 by omega]
      · have e2 : b2.getLsbD (i - 16) = false := BitVec.getLsbD_of_ge _ _ (by omega)
        by_cases h4 : i < 32
        · simp [h1, h2, h3, h4, e0, e1, e2, show i - 24 < 32 by omega]
        · simp [h1, h2, h3, h4]

/-- `LE32(LE32_BYTES(v)) = v` (R12). -/
@[simp] theorem le32_of_bytes (v : Word) :
    le32 (v.extractLsb' 0 8) (v.extractLsb' 8 8) (v.extractLsb' 16 8) (v.extractLsb' 24 8) = v := by
  apply BitVec.eq_of_getLsbD_eq
  intro i hi
  rw [le32_getLsbD]
  simp only [BitVec.getLsbD_extractLsb']
  split
  · simp [*]
  · split
    · simp [show i - 8 < 8 by omega, show 8 + (i - 8) = i by omega]
    · split
      · simp [show i - 16 < 8 by omega, show 16 + (i - 16) = i by omega]
      · simp [hi, show i - 24 < 8 by omega, show 24 + (i - 24) = i by omega]

/-- `LE32_BYTES(LE32(b0, b1, b2, b3))` gives the four bytes back. -/
theorem le32Bytes_le32 (b0 b1 b2 b3 : Byte) : le32Bytes (le32 b0 b1 b2 b3) = [b0, b1, b2, b3] := by
  have key : ∀ (k : Nat) (b : Byte), (∀ i < 8, (le32 b0 b1 b2 b3).getLsbD (k + i) = b.getLsbD i) →
      (le32 b0 b1 b2 b3).extractLsb' k 8 = b := by
    intro k b h
    apply BitVec.eq_of_getLsbD_eq
    intro i hi
    rw [BitVec.getLsbD_extractLsb', h i hi]
    simp [hi]
  have e0 := key 0 b0 fun i hi => by rw [le32_getLsbD]; simp [hi]
  have e1 := key 8 b1 fun i hi => by rw [le32_getLsbD]; simp [show ¬ 8 + i < 8 by omega, show 8 + i < 16 by omega]
  have e2 := key 16 b2 fun i hi => by
    rw [le32_getLsbD]
    simp [show ¬ 16 + i < 8 by omega, show ¬ 16 + i < 16 by omega, show 16 + i < 24 by omega]
  have e3 := key 24 b3 fun i hi => by
    rw [le32_getLsbD]
    simp [show ¬ 24 + i < 8 by omega, show ¬ 24 + i < 16 by omega, show ¬ 24 + i < 24 by omega, show 24 + i < 32 by omega]
  simp only [le32Bytes, e0, e1, e2, e3]

/-- Four bytes are determined by the value they assemble to. -/
theorem le32_inj {a0 a1 a2 a3 b0 b1 b2 b3 : Byte} (h : le32 a0 a1 a2 a3 = le32 b0 b1 b2 b3) :
    a0 = b0 ∧ a1 = b1 ∧ a2 = b2 ∧ a3 = b3 := by
  have := congrArg le32Bytes h
  simpa [le32Bytes_le32] using this

@[simp] theorem le32Bytes_length (v : Word) : (le32Bytes v).length = 4 := rfl

/-- The magic's bytes in stream order (R6, R43). -/
theorem le32Bytes_magic : le32Bytes magic = [0x42#8, 0x49#8, 0x54#8, 0x4D#8] := by decide

theorem le32_magic : le32 0x42#8 0x49#8 0x54#8 0x4D#8 = magic := by decide

/-! ### Counts (R11) -/

theorem numPixels_lt (w h : Word) : numPixels w h < 2 ^ 64 := by
  have h1 := w.isLt
  have h2 := h.isLt
  calc numPixels w h = w.toNat * h.toNat := rfl
    _ < 2 ^ 32 * 2 ^ 32 := Nat.mul_lt_mul'' h1 h2
    _ = 2 ^ 64 := by norm_num

theorem ceilWords_le {n : Nat} : n ≤ 32 * ceilWords n := by unfold ceilWords; omega

theorem ceilWords_bound {n : Nat} : 32 * ceilWords n < n + 32 := by unfold ceilWords; omega

theorem numWords_lt (w h : Word) : numWords w h < 2 ^ 60 := by
  have := numPixels_lt w h
  have := @ceilWords_bound (numPixels w h)
  unfold numWords
  omega

/-- A word count fits its 64-bit register (R11). -/
@[simp] theorem toNat_numWords (w h : Word) : (BitVec.ofNat 64 (numWords w h)).toNat = numWords w h := by
  have := numWords_lt w h
  rw [BitVec.toNat_ofNat, Nat.mod_eq_of_lt (by omega)]

/-! ### Header functions (R80, R87) -/

theorem writeHeader_eq (w h : Word) :
    writeHeader w h = [0x42#8, 0x49#8, 0x54#8, 0x4D#8] ++ le32Bytes w ++ le32Bytes h := by
  rw [writeHeader, le32Bytes_magic]

@[simp] theorem writeHeader_length (w h : Word) : (writeHeader w h).length = 12 := rfl

/-! ### Packed bits (R13, R46, R49) -/

theorem shift_and_one (w : Word) (b : Nat) : (((w >>> b) &&& 1#32) == 1#32) = w.getLsbD b := by
  have hlow : ((w >>> b) &&& 1#32) = BitVec.ofNat 32 (w.getLsbD b).toNat := by
    apply BitVec.eq_of_getLsbD_eq
    intro i hi
    rcases Nat.eq_zero_or_pos i with rfl | hpos
    · cases h : w.getLsbD b <;> simp [h]
    · cases w.getLsbD b <;> simp [show i ≠ 0 by omega]
  rw [hlow]
  cases w.getLsbD b <;> decide

theorem bitGet_eq (ws : List Word) (i : Nat) :
    bitGet ws i = match ws[i / 32]? with | some w => w.getLsbD (i % 32) | none => false := by
  unfold bitGet wordIndex bitIndex
  cases ws[i / 32]? with
  | none => rfl
  | some w => exact shift_and_one w _

@[simp] theorem toDisplay_toBit (d : Byte) : toDisplay (toBit d) = if d = 0#8 then 0#8 else 255#8 := by
  simp [toDisplay, toBit]

theorem toDisplay_cases (b : Bool) : toDisplay b = 0#8 ∨ toDisplay b = 255#8 := by cases b <;> simp [toDisplay]

theorem laneBit_of_lt {g : List Byte} {i : Nat} (h : i < g.length) : laneBit g i = toBit g[i] := by
  simp [laneBit, h]

theorem laneBit_of_ge {g : List Byte} {i : Nat} (h : g.length ≤ i) : laneBit g i = false := by
  simp [laneBit, h]

/-! ### Unpacking (R100) -/

@[simp] theorem unpackGrid_length (ws : List Word) (n : Nat) : (unpackGrid ws n).length = n := by simp [unpackGrid]

theorem unpackGrid_getElem? (ws : List Word) {n i : Nat} (h : i < n) :
    (unpackGrid ws n)[i]? = some (toDisplay (bitGet ws i)) := by
  simp [unpackGrid, h]

/-! ### Packing (R120, R129) -/

/-- Bits set one by one from zero: each lane holds its own bit and the lanes past the last one are zero. -/
theorem foldl_setLanes (f : Nat → Bool) (n : Nat) (hn : n ≤ 32) (b : Nat) :
    ((List.range n).foldl (fun acc j => if f j then acc ||| 1#32 <<< j else acc) (0#32 : Word)).getLsbD b
      = (decide (b < n) && f b) := by
  induction n with
  | zero => simp
  | succ n ih =>
    have ih := ih (by omega)
    have hone : (1#32 <<< n : Word).getLsbD b = decide (b = n) := by
      rw [BitVec.getLsbD_shiftLeft]
      by_cases h : b = n
      · subst h; simp; omega
      · by_cases hb : b < n
        · simp [hb, h]
        · have : b - n ≠ 0 := by omega
          simp [h, this]
    rw [List.range_succ, List.foldl_append]
    simp only [List.foldl_cons, List.foldl_nil]
    by_cases hf : f n
    · rw [if_pos hf, BitVec.getLsbD_or, ih, hone]
      by_cases h : b = n
      · subst h; simp [hf]
      · by_cases hb : b < n <;> simp [hb, h, show (b < n + 1) ↔ (b < n) by omega]
    · rw [if_neg hf, ih]
      by_cases h : b = n
      · subst h; simp [hf]
      · by_cases hb : b < n <;> simp [hb, show (b < n + 1) ↔ (b < n) by omega]

/-- Lane `b` of word `k` is the packed bit of pixel `32k + b` (R69); lanes past the last pixel are zero (R50). -/
theorem packWord_getLsbD (g : List Byte) (k b : Nat) :
    (packWord g k).getLsbD b = (decide (b < 32) && laneBit g (32 * k + b)) :=
  foldl_setLanes (fun b => laneBit g (32 * k + b)) 32 (Nat.le_refl _) b

@[simp] theorem packWords_length (g : List Byte) (n : Nat) : (packWords g n).length = n := by simp [packWords]

theorem packWords_getElem? (g : List Byte) {n k : Nat} (h : k < n) : (packWords g n)[k]? = some (packWord g k) := by
  simp [packWords, h]

/-- Every packed bit of a packed grid is the bit of its pixel (R120). -/
theorem bitGet_packWords (g : List Byte) {n i : Nat} (h : i / 32 < n) : bitGet (packWords g n) i = laneBit g i := by
  rw [bitGet_eq, packWords_getElem? g h]
  simp only [packWord_getLsbD, Nat.mod_lt i (show 32 > 0 by omega), decide_true, Bool.true_and]
  congr 1
  omega

/-- Unpacking a packed grid gives each pixel back as 0 or 255 (R127). -/
theorem unpackGrid_packWords (g : List Byte) :
    unpackGrid (packWords g (ceilWords g.length)) g.length = g.map (fun d => toDisplay (toBit d)) := by
  apply List.ext_getElem
  · simp
  · intro i h1 h2
    simp only [unpackGrid_length] at h1
    have hi : i / 32 < ceilWords g.length := by unfold ceilWords; omega
    simp only [unpackGrid, List.getElem_map, List.getElem_range]
    rw [bitGet_packWords g hi, laneBit_of_lt h1]

/-! ### The words of a stream (R45, R141) -/

@[simp] theorem streamWords_length (s : List Byte) (a : Nat) : (streamWords s a).length = a := by simp [streamWords]

theorem streamWords_getElem? (s : List Byte) {a k : Nat} (h : k < a) : (streamWords s a)[k]? = some (streamWord s k) := by
  simp [streamWords, h]

end Sys2Proof.Machine
end

