-- ==== Sys2Proof/Laws/State.lean ====
section
/-! SUPPORT. One lemma per field per named update of the state, each true by `rfl`, so that no later proof unfolds an update. -/

namespace Sys2Proof.Machine

open Sys2Proof

@[simp] theorem setStatus_caps (c : StatusCode) (s : State) : (setStatus c s).caps = s.caps := rfl
@[simp] theorem setStatus_status (c : StatusCode) (s : State) : (setStatus c s).status = statusWord c := rfl
@[simp] theorem setStatus_width (c : StatusCode) (s : State) : (setStatus c s).width = s.width := rfl
@[simp] theorem setStatus_height (c : StatusCode) (s : State) : (setStatus c s).height = s.height := rfl
@[simp] theorem setStatus_hdrLen (c : StatusCode) (s : State) : (setStatus c s).hdrLen = s.hdrLen := rfl
@[simp] theorem setStatus_wordAvail (c : StatusCode) (s : State) : (setStatus c s).wordAvail = s.wordAvail := rfl
@[simp] theorem setStatus_wordCount (c : StatusCode) (s : State) : (setStatus c s).wordCount = s.wordCount := rfl
@[simp] theorem setStatus_hbuf (c : StatusCode) (s : State) : (setStatus c s).hbuf = s.hbuf := rfl
@[simp] theorem setStatus_wmem (c : StatusCode) (s : State) : (setStatus c s).wmem = s.wmem := rfl
@[simp] theorem setStatus_gmem (c : StatusCode) (s : State) : (setStatus c s).gmem = s.gmem := rfl
@[simp] theorem setStatus_hostProg (c : StatusCode) (s : State) : (setStatus c s).hostProg = s.hostProg := rfl
@[simp] theorem setStatus_hostPos (c : StatusCode) (s : State) : (setStatus c s).hostPos = s.hostPos := rfl
@[simp] theorem setStatus_hostReads (c : StatusCode) (s : State) : (setStatus c s).hostReads = s.hostReads := rfl
@[simp] theorem setStatus_hostResult (c : StatusCode) (s : State) : (setStatus c s).hostResult = s.hostResult := rfl

@[simp] theorem advance_caps (s : State) : (advance s).caps = s.caps := rfl
@[simp] theorem advance_status (s : State) : (advance s).status = s.status := rfl
@[simp] theorem advance_width (s : State) : (advance s).width = s.width := rfl
@[simp] theorem advance_height (s : State) : (advance s).height = s.height := rfl
@[simp] theorem advance_hdrLen (s : State) : (advance s).hdrLen = s.hdrLen := rfl
@[simp] theorem advance_wordAvail (s : State) : (advance s).wordAvail = s.wordAvail := rfl
@[simp] theorem advance_wordCount (s : State) : (advance s).wordCount = s.wordCount := rfl
@[simp] theorem advance_hbuf (s : State) : (advance s).hbuf = s.hbuf := rfl
@[simp] theorem advance_wmem (s : State) : (advance s).wmem = s.wmem := rfl
@[simp] theorem advance_gmem (s : State) : (advance s).gmem = s.gmem := rfl
@[simp] theorem advance_hostProg (s : State) : (advance s).hostProg = s.hostProg := rfl
@[simp] theorem advance_hostPos (s : State) : (advance s).hostPos = s.hostPos + 1 := rfl
@[simp] theorem advance_hostReads (s : State) : (advance s).hostReads = s.hostReads := rfl
@[simp] theorem advance_hostResult (s : State) : (advance s).hostResult = s.hostResult := rfl

@[simp] theorem resetBlock_caps (s : State) : (resetBlock s).caps = s.caps := rfl
@[simp] theorem resetBlock_status (s : State) : (resetBlock s).status = 0x00000007#32 := rfl
@[simp] theorem resetBlock_width (s : State) : (resetBlock s).width = none := rfl
@[simp] theorem resetBlock_height (s : State) : (resetBlock s).height = none := rfl
@[simp] theorem resetBlock_hdrLen (s : State) : (resetBlock s).hdrLen = none := rfl
@[simp] theorem resetBlock_wordAvail (s : State) : (resetBlock s).wordAvail = none := rfl
@[simp] theorem resetBlock_wordCount (s : State) : (resetBlock s).wordCount = none := rfl
@[simp] theorem resetBlock_hbuf (s : State) : (resetBlock s).hbuf = [] := rfl
@[simp] theorem resetBlock_wmem (s : State) : (resetBlock s).wmem = [] := rfl
@[simp] theorem resetBlock_gmem (s : State) : (resetBlock s).gmem = [] := rfl
@[simp] theorem resetBlock_hostProg (s : State) : (resetBlock s).hostProg = s.hostProg := rfl
@[simp] theorem resetBlock_hostPos (s : State) : (resetBlock s).hostPos = s.hostPos := rfl
@[simp] theorem resetBlock_hostReads (s : State) : (resetBlock s).hostReads = s.hostReads := rfl
@[simp] theorem resetBlock_hostResult (s : State) : (resetBlock s).hostResult = s.hostResult := rfl

@[simp] theorem setStatus_setStatus (c d : StatusCode) (s : State) : setStatus c (setStatus d s) = setStatus c s := rfl

theorem setStatus_advance (c : StatusCode) (s : State) : setStatus c (advance s) = advance (setStatus c s) := rfl

end Sys2Proof.Machine
end

