-- ==== Sys2Proof/Laws/Exec.lean ====
section
/-! SUPPORT. Everything an operation can do, said once for each shared operation and each meaning; later proofs cite these and
unfold no meaning. -/

namespace Sys2Proof.Machine

open Sys2Proof

/-! ### The shared operations -/

theorem withOperand_next {n : Nat} {r : Reg} {v : Option (BitVec n)} {k : BitVec n → Result} {t : State}
    (h : withOperand r v k = .next t) : ∃ x, v = some x ∧ k x = .next t := by
  cases v with
  | none => simp [withOperand] at h
  | some x => exact ⟨x, rfl, h⟩

@[simp] theorem withOperand_some {n : Nat} (r : Reg) (x : BitVec n) (k : BitVec n → Result) :
    withOperand r (some x) k = k x := rfl

theorem withOperand_of_eq {n : Nat} {r : Reg} {v : Option (BitVec n)} {x : BitVec n} {k : BitVec n → Result}
    (h : v = some x) : withOperand r v k = k x := by rw [h]; rfl

@[simp] theorem withOperand_none {n : Nat} (r : Reg) (k : BitVec n → Result) :
    withOperand r (none : Option (BitVec n)) k = .fault (.unsetOperand r) := rfl

theorem withCell_next {α : Type} {b : Buffer} {m : Memory α} {a : Nat} {k : α → Result} {t : State}
    (h : withCell b m a k = .next t) : ∃ v, m.read a = some v ∧ k v = .next t := by
  unfold withCell at h
  cases hr : m.read a with
  | none => simp [hr] at h
  | some v => exact ⟨v, rfl, by simpa [hr] using h⟩

theorem withCell_of_unset {α : Type} {b : Buffer} {m : Memory α} {a : Nat} {k : α → Result} (h : m.read a = none) :
    withCell b m a k = .fault (.unsetData b a) := by simp [withCell, h]

theorem withCell_of_read {α : Type} {b : Buffer} {m : Memory α} {a : Nat} {k : α → Result} {v : α}
    (h : m.read a = some v) : withCell b m a k = k v := by simp [withCell, h]

theorem withCells_next {α : Type} {b : Buffer} {m : Memory α} {a n : Nat} {k : List α → Result} {t : State}
    (h : withCells b m a n k = .next t) : ∃ vs, m.readRange a n = .ok vs ∧ k vs = .next t := by
  unfold withCells at h
  cases hr : m.readRange a n with
  | error i => simp [hr] at h
  | ok vs => exact ⟨vs, rfl, by simpa [hr] using h⟩

theorem withCells_of_read {α : Type} {b : Buffer} {m : Memory α} {a n : Nat} {k : List α → Result} {vs : List α}
    (h : m.readRange a n = .ok vs) : withCells b m a n k = k vs := by simp [withCells, h]

theorem withCells_of_firstUnset {α : Type} {b : Buffer} {m : Memory α} {a n k : Nat} {f : List α → Result}
    (h : m.FirstUnset a k) (hk : k < a + n) : withCells b m a n f = .fault (.unsetData b k) := by
  have : m.readRange a n = .error k := (m.readRange_error_iff a n k).2 ⟨h.1, hk, h.2⟩
  simp [withCells, this]

theorem withCells_of_holds {α : Type} {b : Buffer} {m : Memory α} {n : Nat} {g : Nat → α} {f : List α → Result}
    (h : m.Holds n g) : withCells b m 0 n f = f ((List.range n).map g) :=
  withCells_of_read (m.readRange_map 0 n g fun i hi => by simpa using h i hi)

theorem withField_next {s : State} {k : Nat} {f : Word → Result} {t : State} (h : withField s k f = .next t) :
    ∃ v, FieldIs s k v ∧ f v = .next t := by
  unfold withField at h
  obtain ⟨b0, h0, h⟩ := withCell_next h
  obtain ⟨b1, h1, h⟩ := withCell_next h
  obtain ⟨b2, h2, h⟩ := withCell_next h
  obtain ⟨b3, h3, h⟩ := withCell_next h
  exact ⟨_, ⟨b0, b1, b2, b3, h0, h1, h2, h3, rfl⟩, h⟩

theorem withField_of_fieldIs {s : State} {k : Nat} {f : Word → Result} {v : Word} (h : FieldIs s k v) :
    withField s k f = f v := by
  obtain ⟨b0, b1, b2, b3, h0, h1, h2, h3, rfl⟩ := h
  simp only [withField, withCell_of_read h0, withCell_of_read h1, withCell_of_read h2, withCell_of_read h3]

/-- A field whose first cell without a value is one of its four faults on that cell. -/
theorem withField_of_firstUnset {s : State} {a k : Nat} {f : Word → Result} (h : s.hbuf.FirstUnset a k)
    (hk : k < a + 4) : withField s a f = .fault (.unsetData .hbuf k) := by
  obtain ⟨h1, h2, h3⟩ := h
  have value : ∀ j, a ≤ j → j < k → ∃ v, s.hbuf.read j = some v := fun j p q => Option.isSome_iff_exists.1 (h3 j p q)
  unfold withField
  by_cases e0 : k = a
  · subst e0; exact withCell_of_unset h2
  obtain ⟨_, hv⟩ := value a (by omega) (by omega)
  rw [withCell_of_read hv]
  by_cases e1 : k = a + 1
  · subst e1; exact withCell_of_unset h2
  obtain ⟨_, hv⟩ := value (a + 1) (by omega) (by omega)
  rw [withCell_of_read hv]
  by_cases e2 : k = a + 2
  · subst e2; exact withCell_of_unset h2
  obtain ⟨_, hv⟩ := value (a + 2) (by omega) (by omega)
  rw [withCell_of_read hv]
  have e3 : k = a + 3 := by omega
  subst e3; exact withCell_of_unset h2

theorem FieldIs.unique {s : State} {k : Nat} {v w : Word} (hv : FieldIs s k v) (hw : FieldIs s k w) : v = w := by
  obtain ⟨b0, b1, b2, b3, h0, h1, h2, h3, rfl⟩ := hv
  obtain ⟨c0, c1, c2, c3, g0, g1, g2, g3, rfl⟩ := hw
  simp_all

@[simp] theorem exceeds_none (n : Nat) : exceeds n none = false := rfl

@[simp] theorem exceeds_some (n c : Nat) : exceeds n (some c) = decide (c < n) := rfl

theorem exceeds_eq_true_iff {n : Nat} {cap : Option Nat} : exceeds n cap = true ↔ ∃ c, cap = some c ∧ c < n := by
  cases cap <;> simp

theorem exceeds_eq_false_iff {n : Nat} {cap : Option Nat} : exceeds n cap = false ↔ ∀ c, cap = some c → n ≤ c := by
  cases cap <;> simp

@[simp] theorem raise_eq_next (c : StatusCode) (s t : State) : raise c s = .next t ↔ t = setStatus c s := by
  simp [raise, eq_comm]

@[simp] theorem finish_eq_next (s t : State) : finish s = .next t ↔ t = setStatus .ok s := by
  simp [finish, eq_comm]

theorem headerLength_le (len : Word) : headerLength len ≤ 12 := Nat.min_le_right _ _

/-! ### The four operations -/

/-- The state `HDR.PARSE` leaves when it succeeds (R81). -/
def parsed (s : State) (w h : Word) : State :=
  setStatus .ok { s with width := some w, height := some h, wordCount := some (BitVec.ofNat 64 (numWords w h)) }

/-- The state `HDR.WRITE` leaves (R88). -/
def written (s : State) (w h : Word) : State :=
  setStatus .ok { s with hbuf := s.hbuf.writeRange 0 (writeHeader w h), hdrLen := some 12#32 }

/-- The state `UNPACK` leaves when it succeeds (R101). -/
def unpacked (s : State) (w h : Word) (ws : List Word) : State :=
  setStatus .ok { s with
    gmem := s.gmem.writeRange 0 (unpackGrid ws (numPixels w h))
    wordCount := some (BitVec.ofNat 64 (numWords w h)) }

/-- The state `PACK` leaves when it succeeds (R121). -/
def packed (s : State) (w h : Word) (grid : List Byte) : State :=
  setStatus .ok { s with
    wmem := s.wmem.writeRange 0 (packWords grid (numWords w h))
    wordCount := some (BitVec.ofNat 64 (numWords w h))
    wordAvail := some (BitVec.ofNat 64 (numWords w h)) }

/-- `HDR.PARSE` with `HDR_LEN` read. -/
theorem exec_hdrParse_eq {s : State} {len : Word} (hlen : s.hdrLen = some len) :
    exec .hdrParse s =
      if headerLength len < 4 then raise .truncated s
      else
        withField s 0 fun m =>
        if m ≠ magic then raise .invalidMagic s
        else if headerLength len < 12 then raise .truncated s
        else
          withField s 4 fun w =>
          withField s 8 fun h =>
          finish { s with
            width := some w
            height := some h
            wordCount := some (BitVec.ofNat 64 (numWords w h)) } :=
  withOperand_of_eq hlen

/-- `HDR.WRITE` with its operands read. -/
theorem exec_hdrWrite_eq {s : State} {w h : Word} (hw : s.width = some w) (hh : s.height = some h) :
    exec .hdrWrite s = .next (written s w h) :=
  (withOperand_of_eq hw).trans (withOperand_of_eq hh)

/-- `UNPACK` with its operands read. -/
theorem exec_unpack_eq {s : State} {w h : Word} {a : DWord} (hw : s.width = some w) (hh : s.height = some h)
    (ha : s.wordAvail = some a) :
    exec .unpack s =
      if exceeds a.toNat s.caps.wordCap then raise .badCommand s
      else if a.toNat < numWords w h then raise .truncated s
      else if exceeds (numPixels w h) s.caps.pixelCap then raise .capacity s
      else withCells .wmem s.wmem 0 (numWords w h) fun ws => .next (unpacked s w h ws) :=
  (withOperand_of_eq hw).trans ((withOperand_of_eq hh).trans (withOperand_of_eq ha))

/-- `PACK` with its operands read. -/
theorem exec_pack_eq {s : State} {w h : Word} (hw : s.width = some w) (hh : s.height = some h) :
    exec .pack s =
      if exceeds (numPixels w h) s.caps.pixelCap then raise .capacity s
      else if exceeds (numWords w h) s.caps.wordCap then raise .capacity s
      else withCells .gmem s.gmem 0 (numPixels w h) fun grid => .next (packed s w h grid) :=
  (withOperand_of_eq hw).trans (withOperand_of_eq hh)

/-- The four ways `HDR.PARSE` answers a next state. -/
theorem execHdrParse_next {s t : State} (h : execHdrParse s = .next t) :
    ∃ len, s.hdrLen = some len ∧
      ((headerLength len < 4 ∧ t = setStatus .truncated s) ∨
       (4 ≤ headerLength len ∧ ∃ m, FieldIs s 0 m ∧
         ((m ≠ magic ∧ t = setStatus .invalidMagic s) ∨
          (m = magic ∧ headerLength len < 12 ∧ t = setStatus .truncated s) ∨
          (m = magic ∧ headerLength len = 12 ∧ ∃ w h, FieldIs s 4 w ∧ FieldIs s 8 h ∧ t = parsed s w h)))) := by
  unfold execHdrParse at h
  obtain ⟨len, hlen, h⟩ := withOperand_next h
  refine ⟨len, hlen, ?_⟩
  split at h
  · exact .inl ⟨‹_›, by simpa using h⟩
  · refine .inr ⟨by omega, ?_⟩
    obtain ⟨m, hm, h⟩ := withField_next h
    refine ⟨m, hm, ?_⟩
    split at h
    · exact .inl ⟨‹_›, by simpa using h⟩
    · rename_i hmagic
      have hmagic : m = magic := by simpa using hmagic
      split at h
      · exact .inr (.inl ⟨hmagic, ‹_›, by simpa using h⟩)
      · obtain ⟨w, hw, h⟩ := withField_next h
        obtain ⟨ht, hht, h⟩ := withField_next h
        refine .inr (.inr ⟨hmagic, ?_, w, ht, hw, hht, by simpa [parsed] using h⟩)
        have := headerLength_le len
        omega

/-- The one way `HDR.WRITE` answers a next state. -/
theorem execHdrWrite_next {s t : State} (h : execHdrWrite s = .next t) :
    ∃ w ht, s.width = some w ∧ s.height = some ht ∧ t = written s w ht := by
  unfold execHdrWrite at h
  obtain ⟨w, hw, h⟩ := withOperand_next h
  obtain ⟨ht, hht, h⟩ := withOperand_next h
  exact ⟨w, ht, hw, hht, by simpa [written] using h⟩

/-- The four ways `UNPACK` answers a next state. -/
theorem execUnpack_next {s t : State} (h : execUnpack s = .next t) :
    ∃ w ht a, s.width = some w ∧ s.height = some ht ∧ s.wordAvail = some a ∧
      ((exceeds a.toNat s.caps.wordCap = true ∧ t = setStatus .badCommand s) ∨
       (exceeds a.toNat s.caps.wordCap = false ∧ a.toNat < numWords w ht ∧ t = setStatus .truncated s) ∨
       (exceeds a.toNat s.caps.wordCap = false ∧ numWords w ht ≤ a.toNat ∧
         exceeds (numPixels w ht) s.caps.pixelCap = true ∧ t = setStatus .capacity s) ∨
       (exceeds a.toNat s.caps.wordCap = false ∧ numWords w ht ≤ a.toNat ∧
         exceeds (numPixels w ht) s.caps.pixelCap = false ∧
         ∃ ws, s.wmem.readRange 0 (numWords w ht) = .ok ws ∧ t = unpacked s w ht ws)) := by
  unfold execUnpack at h
  obtain ⟨w, hw, h⟩ := withOperand_next h
  obtain ⟨ht, hht, h⟩ := withOperand_next h
  obtain ⟨a, ha, h⟩ := withOperand_next h
  refine ⟨w, ht, a, hw, hht, ha, ?_⟩
  split at h
  · exact .inl ⟨‹_›, by simpa using h⟩
  · split at h
    · exact .inr (.inl ⟨Bool.eq_false_of_not_eq_true ‹_›, ‹_›, by simpa using h⟩)
    · split at h
      · exact .inr (.inr (.inl ⟨Bool.eq_false_of_not_eq_true ‹_›, by omega, ‹_›, by simpa using h⟩))
      · obtain ⟨ws, hws, h⟩ := withCells_next h
        exact .inr (.inr (.inr ⟨Bool.eq_false_of_not_eq_true ‹_›, by omega, Bool.eq_false_of_not_eq_true ‹_›, ws, hws,
          by simpa [unpacked] using h⟩))

/-- The three ways `PACK` answers a next state. -/
theorem execPack_next {s t : State} (h : execPack s = .next t) :
    ∃ w ht, s.width = some w ∧ s.height = some ht ∧
      (((exceeds (numPixels w ht) s.caps.pixelCap = true ∨ exceeds (numWords w ht) s.caps.wordCap = true) ∧
         t = setStatus .capacity s) ∨
       (exceeds (numPixels w ht) s.caps.pixelCap = false ∧ exceeds (numWords w ht) s.caps.wordCap = false ∧
         ∃ grid, s.gmem.readRange 0 (numPixels w ht) = .ok grid ∧ t = packed s w ht grid)) := by
  unfold execPack at h
  obtain ⟨w, hw, h⟩ := withOperand_next h
  obtain ⟨ht, hht, h⟩ := withOperand_next h
  refine ⟨w, ht, hw, hht, ?_⟩
  split at h
  · exact .inl ⟨.inl ‹_›, by simpa using h⟩
  · split at h
    · exact .inl ⟨.inr ‹_›, by simpa using h⟩
    · obtain ⟨grid, hg, h⟩ := withCells_next h
      exact .inr ⟨Bool.eq_false_of_not_eq_true ‹_›, Bool.eq_false_of_not_eq_true ‹_›, grid, hg, by simpa [packed] using h⟩

/-- Every way an operation answers a next state: an error that changes `STATUS` only, or its own success. -/
theorem exec_next {i : Instr} {s t : State} (h : exec i s = .next t) :
    (∃ c, c ≠ .ok ∧ c ≠ .none ∧ t = setStatus c s) ∨
    (i = .hdrParse ∧ ∃ w ht, FieldIs s 0 magic ∧ FieldIs s 4 w ∧ FieldIs s 8 ht ∧
      (∃ len, s.hdrLen = some len ∧ headerLength len = 12) ∧ t = parsed s w ht) ∨
    (i = .hdrWrite ∧ ∃ w ht, s.width = some w ∧ s.height = some ht ∧ t = written s w ht) ∨
    (i = .unpack ∧ ∃ w ht a ws, s.width = some w ∧ s.height = some ht ∧ s.wordAvail = some a ∧
      exceeds a.toNat s.caps.wordCap = false ∧ numWords w ht ≤ a.toNat ∧
      exceeds (numPixels w ht) s.caps.pixelCap = false ∧ s.wmem.readRange 0 (numWords w ht) = .ok ws ∧
      t = unpacked s w ht ws) ∨
    (i = .pack ∧ ∃ w ht grid, s.width = some w ∧ s.height = some ht ∧
      exceeds (numPixels w ht) s.caps.pixelCap = false ∧ exceeds (numWords w ht) s.caps.wordCap = false ∧
      s.gmem.readRange 0 (numPixels w ht) = .ok grid ∧ t = packed s w ht grid) := by
  cases i with
  | hdrParse =>
    obtain ⟨len, hl, ⟨_, h⟩ | ⟨_, m, hm, ⟨_, h⟩ | ⟨_, _, h⟩ | ⟨rfl, h12, w, ht, hw, hh, h⟩⟩⟩ := execHdrParse_next h
    · exact .inl ⟨_, by simp, by simp, h⟩
    · exact .inl ⟨_, by simp, by simp, h⟩
    · exact .inl ⟨_, by simp, by simp, h⟩
    · exact .inr (.inl ⟨rfl, w, ht, hm, hw, hh, ⟨len, hl, h12⟩, h⟩)
  | hdrWrite =>
    obtain ⟨w, ht, hw, hh, h⟩ := execHdrWrite_next h
    exact .inr (.inr (.inl ⟨rfl, w, ht, hw, hh, h⟩))
  | unpack =>
    obtain ⟨w, ht, a, hw, hh, ha, ⟨_, h⟩ | ⟨_, _, h⟩ | ⟨_, _, _, h⟩ | ⟨h1, h2, h3, ws, hws, h⟩⟩ := execUnpack_next h
    · exact .inl ⟨_, by simp, by simp, h⟩
    · exact .inl ⟨_, by simp, by simp, h⟩
    · exact .inl ⟨_, by simp, by simp, h⟩
    · exact .inr (.inr (.inr (.inl ⟨rfl, w, ht, a, ws, hw, hh, ha, h1, h2, h3, hws, h⟩)))
  | pack =>
    obtain ⟨w, ht, hw, hh, ⟨_, h⟩ | ⟨h1, h2, g, hg, h⟩⟩ := execPack_next h
    · exact .inl ⟨_, by simp, by simp, h⟩
    · exact .inr (.inr (.inr (.inr ⟨rfl, w, ht, g, hw, hh, h1, h2, hg, h⟩)))

end Sys2Proof.Machine
end

