-- ==== Sys2Proof/Laws/PerInstr.lean ====
section
/-! SUPPORT. Statements made per instruction. -/

namespace Sys2Proof.Laws.CommandWord

open Sys2Proof

/-- The command word of an operation is well-formed, and the operation is what the decoder reads from it (R61, R63). -/
def Statement (i : Instr) : Prop := i.wf = true ∧ commandWordWf (encode i) = true ∧ decode (encode i) = .ok i

theorem hdrParse : Statement .hdrParse := ⟨rfl, rfl, rfl⟩

theorem hdrWrite : Statement .hdrWrite := ⟨rfl, rfl, rfl⟩

theorem unpack : Statement .unpack := ⟨rfl, rfl, rfl⟩

theorem pack : Statement .pack := ⟨rfl, rfl, rfl⟩

end Sys2Proof.Laws.CommandWord
end

