-- ==== Sys2Proof/Laws/Step.lean ====
section
/-! SUPPORT. Everything a line of the host's program, a step and a run of steps can do. -/

namespace Sys2Proof.Machine

open Sys2Proof

/-! ### Fetching the next line -/

theorem nextForm_eq {s : State} {p : List HostForm} {n : Nat} (hp : s.hostProg = p) (hn : s.hostPos = n) :
    nextForm s = p[n]? := by rw [nextForm, hp, hn]

@[simp] theorem nextForm_placeForm (f : HostForm) (s : State) : nextForm (placeForm f s) = some f := by
  simp only [nextForm, placeForm]
  rw [List.getElem?_append_right (by simp)]
  simp

theorem step_of_nextForm {s : State} {f : HostForm} (h : nextForm s = some f) : step s = runForm f s := by
  simp [step, h]

theorem step_of_done {s : State} (h : nextForm s = none) : step s = .next s := by simp [step, h]

/-- The outcome of a `CMD` write (R63). -/
theorem issue_eq (c : Word) (s : State) :
    issue c s = if reservedField c ≠ 0 then raise .badCommand s else exec (decodeOp (opField c)) s := by
  unfold issue decode
  by_cases h : reservedField c ≠ 0
  · rw [if_pos h, if_pos h]
  · rw [if_neg h, if_neg h]

/-! ### Access to a buffer -/

theorem withAccess_next {b : Buffer} {k n : Nat} {s t : State} {r : Result} (h : withAccess b k n s r = .next t) :
    accessOk b s.caps k n = true ∧ r = .next t := by
  unfold withAccess at h
  split at h
  · exact ⟨‹_›, h⟩
  · cases h

theorem withAccess_of_le {b : Buffer} {s : State} {k n : Nat} (h : ∀ c, capacityOf b s.caps = some c → k + n ≤ c)
    (r : Result) : withAccess b k n s r = r := by
  unfold withAccess accessOk
  rw [if_pos]
  simp [exceeds_eq_false_iff.2 h]

theorem withAccess_refused_iff {b : Buffer} {k n : Nat} {s : State} {r : Result} {q : Refusal} :
    withAccess b k n s r = .refused q ↔
      (accessOk b s.caps k n = false ∧ q = .outsideCapacity b k) ∨ (accessOk b s.caps k n = true ∧ r = .refused q) := by
  unfold withAccess
  cases accessOk b s.caps k n <;> simp [eq_comm]

theorem accessOk_bound {b : Buffer} {caps : Config.Caps} {k n : Nat} (h : accessOk b caps k n = true) :
    n = 0 ∨ ∀ c, capacityOf b caps = some c → k + n ≤ c := by
  unfold accessOk at h
  simp only [Bool.or_eq_true, beq_iff_eq, Bool.not_eq_true'] at h
  rcases h with h | h
  · exact .inl h
  · exact .inr (exceeds_eq_false_iff.1 h)

/-- A write inside the capacity keeps a buffer inside it. -/
theorem Memory.writeRange_within {α : Type} {m : Memory α} {cap : Option Nat} {k : Nat} {vs : List α}
    (h : m.within cap) (hk : vs.length = 0 ∨ ∀ c, cap = some c → k + vs.length ≤ c) :
    (m.writeRange k vs).within cap := by
  intro c hc p hp
  unfold Memory.writeRange at hp
  simp only [List.mem_append, List.mem_filter] at hp
  rcases hp with (hp | hp) | hp
  · exact h c hc p hp.1
  · have := cellsAt_mem hp
    rcases hk with hk | hk
    · omega
    · have := hk c hc
      omega
  · exact h c hc p hp.1

/-! ### One line of the host's program -/

/-- What a line of the host's program leaves when it answers a next state. -/
inductive LineEffect (s : State) : HostForm → State → Prop where
  /-- An issued operation answered `t`. -/
  | operation {c : Word} {t : State} (hc : reservedField c = 0)
      (h : exec (decodeOp (opField c)) (advance s) = .next t) : LineEffect s (.cmd c) t
  /-- A command word with a reserved bit set. -/
  | badCommand {c : Word} (hc : reservedField c ≠ 0) : LineEffect s (.cmd c) (setStatus .badCommand (advance s))
  /-- A line that changes nothing of the block. -/
  | hostOnly {f : HostForm} (hc : ∀ c, f ≠ .cmd c) (hr : f ≠ .reset) (p : Nat) (l : List Datum) (q : Option HostResult) :
      LineEffect s f { s with hostPos := p, hostReads := l, hostResult := q }
  | writeWidth (v : Word) : LineEffect s (.wrReg 2 (.d32 v)) { advance s with width := some v }
  | writeHeight (v : Word) : LineEffect s (.wrReg 3 (.d32 v)) { advance s with height := some v }
  | writeHdrLen (v : Word) : LineEffect s (.wrReg 4 (.d32 v)) { advance s with hdrLen := some v }
  | writeWordAvail (v : DWord) : LineEffect s (.wrReg 5 (.d64 v)) { advance s with wordAvail := some v }
  | writeHbuf {k : Nat} {bs : List Byte} (h : accessOk .hbuf s.caps k bs.length = true) :
      LineEffect s (.wrHbuf k bs) { advance s with hbuf := s.hbuf.writeRange k bs }
  | writeWmem {k : Nat} {ws : List Word} (h : accessOk .wmem s.caps k ws.length = true) :
      LineEffect s (.wrWmem k ws) { advance s with wmem := s.wmem.writeRange k ws }
  | writeGmem {k : Nat} {ps : List Byte} (h : accessOk .gmem s.caps k ps.length = true) :
      LineEffect s (.wrGmem k ps) { advance s with gmem := s.gmem.writeRange k ps }
  | resetInput : LineEffect s .reset (resetBlock (advance s))
  /-- The words of a stream, loaded where they fit. -/
  | load {bytes : List Byte} {stop : Nat} (n : Nat) (h : exceeds (wordsToLoad bytes n) s.caps.wordCap = false) :
      LineEffect s (.loadWords bytes stop) { advance s with
        wmem := s.wmem.writeRange 0 (streamWords bytes (wordsToLoad bytes n))
        wordAvail := some (BitVec.ofNat 64 (wordsToLoad bytes n)) }

/-- Every way a line of the host's program answers a next state. -/
theorem runForm_effect {f : HostForm} {s t : State} (h : runForm f s = .next t) : LineEffect s f t := by
  cases f with
  | wrReg n d =>
    simp only [runForm, hostWriteReg] at h
    match n, h with
    | 0, h =>
      simp only [regOfNum] at h
      cases d with
      | d8 _ => simp at h
      | d64 _ => simp at h
      | d32 c =>
        simp only [issue_eq] at h
        by_cases hc : reservedField c ≠ 0
        · rw [if_pos hc] at h
          have := (raise_eq_next _ _ _).1 h
          subst this; exact .badCommand hc
        · rw [if_neg hc] at h
          exact .operation (by simpa using hc) h
    | 1, h => cases d <;> simp [regOfNum, writeReg] at h; subst h; exact .hostOnly (by simp) (by simp) _ _ _
    | 2, h => cases d <;> simp [regOfNum, writeReg] at h; subst h; exact .writeWidth _
    | 3, h => cases d <;> simp [regOfNum, writeReg] at h; subst h; exact .writeHeight _
    | 4, h => cases d <;> simp [regOfNum, writeReg] at h; subst h; exact .writeHdrLen _
    | 5, h => cases d <;> simp [regOfNum, writeReg] at h; subst h; exact .writeWordAvail _
    | 6, h => cases d <;> simp [regOfNum, writeReg] at h; subst h; exact .hostOnly (by simp) (by simp) _ _ _
    | n + 7, h => simp [regOfNum] at h
  | rdReg n =>
    simp only [runForm, hostReadReg] at h
    cases hr : regOfNum n with
    | none => simp [hr] at h
    | some r =>
      simp only [hr] at h
      cases r <;> simp only [readReg, logRead] at h
      · cases h; exact .hostOnly (by simp) (by simp) _ _ _
      · cases h; exact .hostOnly (by simp) (by simp) _ _ _
      all_goals
        obtain ⟨x, hx, h⟩ := withOperand_next h
        cases h; exact .hostOnly (by simp) (by simp) _ _ _
  | wrHbuf k bs =>
    obtain ⟨ha, h⟩ := withAccess_next h
    cases h
    exact .writeHbuf ha
  | wrWmem k bs =>
    obtain ⟨ha, h⟩ := withAccess_next h
    cases h
    exact .writeWmem ha
  | wrGmem k bs =>
    obtain ⟨ha, h⟩ := withAccess_next h
    cases h
    exact .writeGmem ha
  | rdHbuf k =>
    obtain ⟨ha, h⟩ := withAccess_next h
    obtain ⟨x, hx, h⟩ := withCell_next h
    cases h; exact .hostOnly (by simp) (by simp) _ _ _
  | rdWmem k =>
    obtain ⟨ha, h⟩ := withAccess_next h
    obtain ⟨x, hx, h⟩ := withCell_next h
    cases h; exact .hostOnly (by simp) (by simp) _ _ _
  | rdGmem k =>
    obtain ⟨ha, h⟩ := withAccess_next h
    obtain ⟨x, hx, h⟩ := withCell_next h
    cases h; exact .hostOnly (by simp) (by simp) _ _ _
  | bneStatus l =>
    simp only [runForm, branchStatus] at h
    cases h
    split
    · exact .hostOnly (by simp) (by simp) _ _ _
    · exact .hostOnly (by simp) (by simp) _ _ _
  | halt => cases h; exact .hostOnly (by simp) (by simp) _ _ _
  | reset => cases h; exact .resetInput
  | loadWords bs l =>
    obtain ⟨x, hx, h⟩ := withOperand_next (show loadWords bs l s = _ from h)
    split at h
    · cases h; exact .hostOnly (by simp) (by simp) _ _ _
    · cases h; exact .load _ (Bool.eq_false_of_not_eq_true ‹_›)
  | handGrid =>
    obtain ⟨w, hw, h⟩ := withOperand_next (show handGrid s = _ from h)
    obtain ⟨ht, hh, h⟩ := withOperand_next h
    obtain ⟨ha, h⟩ := withAccess_next h
    obtain ⟨x, hx, h⟩ := withCells_next h
    cases h; exact .hostOnly (by simp) (by simp) _ _ _
  | emitStream =>
    obtain ⟨hd, hhd, h⟩ := withCells_next (show emitStream s = _ from h)
    obtain ⟨n, hn, h⟩ := withOperand_next h
    obtain ⟨ha, h⟩ := withAccess_next h
    obtain ⟨x, hx, h⟩ := withCells_next h
    cases h; exact .hostOnly (by simp) (by simp) _ _ _
  | surface => cases h; exact .hostOnly (by simp) (by simp) _ _ _

/-! ### Runs of steps -/

/-- A run goes on from the state its first step answers. -/
theorem run_succ_of_step {k : Nat} {s t : State} (h : step s = .next t) :
    Host.Core.run Sys2Proof.core (k + 1) s = Host.Core.run Sys2Proof.core k t := by
  have : Sys2Proof.core.step s = .next t := h
  simp only [Host.Core.run, this]

/-- A run from a `halt` stays there. -/
theorem run_of_halt (k : Nat) {s : State} (h : nextForm s = some .halt) :
    Host.Core.run Sys2Proof.core k s = .next s := by
  induction k with
  | zero => rfl
  | succ k ih => rw [run_succ_of_step (t := s) (by rw [step_of_nextForm h]; rfl), ih]

/-- A property every step keeps holds after a run. -/
theorem run_induction {P : State → Prop} (hP : ∀ s t, P s → step s = .next t → P t) {k : Nat} {s t : State}
    (h : Host.Core.run Sys2Proof.core k s = .next t) (hs : P s) : P t := by
  induction k generalizing s with
  | zero => cases h; exact hs
  | succ k ih =>
    cases e : step s with
    | next u => rw [run_succ_of_step e] at h; exact ih h (hP s u hs e)
    | fault r =>
      have e' : Sys2Proof.core.step s = .fault r := e
      simp only [Host.Core.run, e'] at h; cases h
    | refused r =>
      have e' : Sys2Proof.core.step s = .refused r := e
      simp only [Host.Core.run, e'] at h; cases h

end Sys2Proof.Machine
end

