-- ==== Sys2Proof/Tests/Slice0.lean ====
section
/-! SUPPORT. Tests of one decode or one step each; expected values are the spec's own vectors (95_test_vectors.md) or are
written out from its rules. Below them: a named witness for the hypotheses of each obligation. -/

namespace Sys2Proof.Tests

open Sys2Proof Sys2Proof.Machine

/-- The next state of an outcome, where there is one. -/
def nextOf (r : Result) : Option State :=
  match r with
  | .next t => some t
  | _ => none

/-- The fault of an outcome, where there is one. -/
def faultOf (r : Result) : Option Fault :=
  match r with
  | .fault f => some f
  | _ => none

/-- The refusal of an outcome, where there is one. -/
def refusalOf (r : Result) : Option Refusal :=
  match r with
  | .refused q => some q
  | _ => none

/-- `vs` as the first cells of a buffer. -/
def cells {α : Type} (vs : List α) : Memory α := cellsAt 0 vs

/-- The header of V1: 4 x 2. -/
def headerV1 : List Byte := [0x42, 0x49, 0x54, 0x4D, 4, 0, 0, 0, 2, 0, 0, 0]

/-- The state of V1 with every operand of every operation in place: a 4 x 2 all-black image. -/
def sample : State := { State.reset with
  width := some 4
  height := some 2
  hdrLen := some 12
  wordAvail := some 1
  hbuf := cells headerV1
  wmem := cells [0x000000FF]
  gmem := cells [0, 0, 0, 0, 0, 0, 0, 0] }

/-- `sample` with one line as the host's program. -/
def line (f : HostForm) : State := { sample with hostProg := [f] }

/-! ### Decoding: words written out bit by bit from R60 and R61 -/

theorem test_decode_hdrParse : decode 0b00000000000000000000000000000000#32 = .ok .hdrParse := by decide

theorem test_decode_hdrWrite : decode 0b00000000000000000000000000000001#32 = .ok .hdrWrite := by decide

theorem test_decode_unpack : decode 0b00000000000000000000000000000010#32 = .ok .unpack := by decide

theorem test_decode_pack : decode 0b00000000000000000000000000000011#32 = .ok .pack := by decide

/-- CW5 to CW8. -/
theorem test_decode_reserved :
    decode 0x00000004#32 = .error .reservedBits ∧ decode 0x80000003#32 = .error .reservedBits ∧
    decode 0xFFFFFFFF#32 = .error .reservedBits ∧ decode 0x00000007#32 = .error .reservedBits := by decide

theorem test_decodeTableWord :
    decodeTableWord 32 0 = some .hdrParse ∧ decodeTableWord 32 1 = some .hdrWrite ∧
    decodeTableWord 32 2 = some .unpack ∧ decodeTableWord 32 3 = some .pack ∧ decodeTableWord 32 4 = none := by decide

theorem test_withFetchWord_places : nextForm (State.reset.withFetchWord 32 3) = some (.cmd 0x00000003#32) := by decide

/-! ### WellFormed: an ill-formed term for each check -/

theorem test_wf_instr : ∀ i ∈ [Instr.hdrParse, .hdrWrite, .unpack, .pack], i.wf = true := by decide

theorem test_wf_commandWord : commandWordWf 0x00000003#32 = true ∧ commandWordWf 0x00000004#32 = false := by decide

theorem test_wf_reservedRegister :
    HostForm.wf Config.unbounded (.rdReg 6) = true ∧ HostForm.wf Config.unbounded (.rdReg 7) = false ∧
    HostForm.wf Config.unbounded (.wrReg 7 (.d32 0)) = false := by decide

theorem test_wf_registerWidth :
    HostForm.wf Config.unbounded (.wrReg 5 (.d64 0)) = true ∧ HostForm.wf Config.unbounded (.wrReg 5 (.d32 0)) = false ∧
    HostForm.wf Config.unbounded (.wrReg 2 (.d64 0)) = false ∧ HostForm.wf Config.unbounded (.wrReg 0 (.d8 0)) = false := by
  decide

theorem test_wf_hbufCapacity :
    HostForm.wf Config.unbounded (.wrHbuf 11 [0]) = true ∧ HostForm.wf Config.unbounded (.wrHbuf 11 [0, 0]) = false ∧
    HostForm.wf Config.unbounded (.rdHbuf 12) = false := by decide

theorem test_wf_bufferCapacities :
    HostForm.wf { pixelCap := some 8, wordCap := some 1 } (.wrGmem 7 [0]) = true ∧
    HostForm.wf { pixelCap := some 8, wordCap := some 1 } (.wrGmem 7 [0, 0]) = false ∧
    HostForm.wf { pixelCap := some 8, wordCap := some 1 } (.rdGmem 8) = false ∧
    HostForm.wf { pixelCap := some 8, wordCap := some 1 } (.wrWmem 0 [0, 0]) = false ∧
    HostForm.wf { pixelCap := some 8, wordCap := some 1 } (.rdWmem 1) = false := by decide

/-! ### The operations, against the vectors of 95_test_vectors.md -/

/-- HP6. -/
theorem test_hdrParse_hp6 :
    (nextOf (exec .hdrParse { State.reset with
        hdrLen := some 12
        hbuf := cells [0x42, 0x49, 0x54, 0x4D, 0x78, 0x56, 0x34, 0x12, 0xF0, 0xDE, 0xBC, 0x9A] })).map
      (fun t => (t.status, t.width, t.height, t.wordCount))
    = some (0, some 0x12345678, some 0x9ABCDEF0, some 0x0058075271216904) := by decide

/-- HP16. -/
theorem test_hdrParse_hp16 :
    faultOf (exec .hdrParse { State.reset with hdrLen := some 12, hbuf := cells [0x42, 0x49, 0x54, 0x4D] })
    = some (.unsetData .hbuf 4) := by decide

/-- HW7. -/
theorem test_hdrWrite_hw7 :
    (nextOf (exec .hdrWrite { State.reset with width := some 0x12345678, height := some 0x9ABCDEF0 })).map
      (fun t => (t.status, t.hdrLen, t.hbuf))
    = some (0, some 12, cells [0x42, 0x49, 0x54, 0x4D, 0x78, 0x56, 0x34, 0x12, 0xF0, 0xDE, 0xBC, 0x9A]) := by decide

/-- HW9. -/
theorem test_hdrWrite_hw9 :
    faultOf (exec .hdrWrite { State.reset with height := some 2 }) = some (.unsetOperand .width) := by decide

/-- UP2. -/
theorem test_unpack_up2 :
    (nextOf (exec .unpack { sample with wmem := cells [0x000000A5] })).map (fun t => (t.status, t.wordCount, t.gmem))
    = some (0, some 1, cells [0, 255, 0, 255, 255, 0, 255, 0]) := by decide

/-- UP13 and UP14: `TRUNCATED` comes before `CAPACITY`. -/
theorem test_unpack_up13_up14 :
    (nextOf (exec .unpack { sample with
        caps := { pixelCap := some 8, wordCap := none }, width := some 3, height := some 3 })).map (·.status) = some 3 ∧
    (nextOf (exec .unpack { sample with
        caps := { pixelCap := some 8, wordCap := none }, width := some 3, height := some 3
        wordAvail := some 0 })).map (·.status) = some 2 := by decide

/-- PK10. -/
theorem test_pack_pk10 :
    (nextOf (exec .pack { State.reset with
        width := some 5, height := some 2, gmem := cells [0, 1, 128, 254, 255, 0, 0, 7, 0, 200] })).map
      (fun t => (t.status, t.wordCount, t.wordAvail, t.wmem))
    = some (0, some 1, some 1, cells [0x00000161]) := by decide

/-- PK9: the second word is tail padding and white. -/
theorem test_pack_pk9 :
    packWords (List.replicate 3 255 ++ List.replicate 3 0 ++ List.replicate 27 255) 2 = [0x00000038, 0x00000000] := by decide

/-! ### Host access -/

/-- R25: a host read of `CMD` returns 0. -/
theorem test_read_cmd : (nextOf (step (line (.rdReg 0)))).map (·.hostReads) = some [.d32 0] := by decide

/-- R24: a write to `WORD_COUNT` is ignored. -/
theorem test_write_wordCount_ignored :
    nextOf (step (line (.wrReg 6 (.d64 9)))) = some (advance (line (.wrReg 6 (.d64 9)))) := by decide

/-- R159. -/
theorem test_reserved_register_refused : refusalOf (step (line (.rdReg 7))) = some (.reservedRegister 7) := by decide

/-- CW6: the reserved bit comes before the operation. -/
theorem test_reserved_bit :
    nextOf (step (line (.cmd 0x80000003))) = some { line (.cmd 0x80000003) with status := 4, hostPos := 1 } := by decide

/-! ### Witnesses: a concrete state and operands that meet the hypotheses of each obligation, clause by clause -/

/-- A 1 x 1 capacity for pixels and for words. -/
def tight : Config.Caps := { pixelCap := some 1, wordCap := some 1 }

/-- A field of the header that `sample` holds. -/
theorem sample_magic : FieldIs sample 0 0x4D544942#32 := ⟨0x42, 0x49, 0x54, 0x4D, by decide⟩

theorem sample_width : FieldIs sample 4 4#32 := ⟨4, 0, 0, 0, by decide⟩

theorem sample_height : FieldIs sample 8 2#32 := ⟨2, 0, 0, 0, by decide⟩

theorem sample_words : sample.wmem.Holds (numWords 4 2) (fun _ => 0x000000FF) := by
  rw [show numWords 4 2 = 1 by decide]
  intro k hk
  interval_cases k; rfl

theorem sample_grid : sample.gmem.Holds (numPixels 4 2) (fun _ => 0) := by
  rw [show numPixels 4 2 = 8 by decide]
  intro k hk
  interval_cases k <;> rfl

/-- Every operation completes on `sample` with `OK`. -/
theorem sample_completes (i : Instr) : ∃ t, exec i sample = .next t ∧ t.status = 0#32 := by
  cases i <;> exact ⟨_, rfl, rfl⟩

theorem witness_ResetLeavesNoValue : Reg.width ≠ .cmd ∧ Reg.width ≠ .status := by decide

theorem witness_OperationsAfterReset : (0#32).toNat < 4 ∧ (3#32).toNat < 4 := by decide

theorem witness_StepRunsIssuedOperation (i : Instr) :
    nextForm (line (.cmd (encode i))) = some (.cmd (encode i)) ∧ decode (encode i) = .ok i := by
  revert i; intro i; cases i <;> decide

theorem witness_ReservedBitsGiveBadCommand :
    nextForm (line (.cmd 0x00000004)) = some (.cmd 0x00000004) ∧
    (0x00000004#32).getLsbD 2 = true ∧ (0x80000003#32).getLsbD 31 = true ∧
    ∀ b, 2 ≤ b → b < 32 → (0x00000003#32).getLsbD b = false := by
  refine ⟨rfl, rfl, rfl, fun b h1 h2 => ?_⟩
  interval_cases b <;> rfl

theorem witness_ParseHeaderFunction :
    (headerV1.take 3).length < 4 ∧ le32 0x4D 0x54 0x49 0x42 ≠ 0x4D544942#32 ∧
    le32 0x42 0x49 0x54 0x4D = 0x4D544942#32 ∧ (headerV1.take 4).length < 12 ∧ (headerV1.take 11).length < 12 ∧
    headerV1.drop 4 = [4, 0, 0, 0, 2, 0, 0, 0] := by decide

/-- Lengths on both sides of each bound: nothing, 3, 4, 11, 12, all ones. -/
theorem witness_HdrParseOutcomes_lengths :
    State.reset.hdrLen = none ∧ sample.hdrLen = some 12#32 ∧ (3#32).toNat < 4 ∧ 4 ≤ (4#32).toNat ∧
    (11#32).toNat < 12 ∧ 12 ≤ (12#32).toNat ∧ 12 ≤ (0xFFFFFFFF#32).toNat := by decide

theorem witness_HdrParseOutcomes_unsetMagic : (cells [0x42, 0x49, 0x54] : Memory Byte).FirstUnset 0 3 :=
  ⟨by decide, by decide, fun j h1 h2 => by interval_cases j <;> rfl⟩

theorem witness_HdrParseOutcomes_unsetDims : (cells (headerV1.take 11) : Memory Byte).FirstUnset 4 11 :=
  ⟨by decide, by decide, fun j h1 h2 => by interval_cases j <;> rfl⟩

theorem witness_HdrParseOutcomes_wrongMagic :
    FieldIs { sample with hbuf := cells [0x4D, 0x54, 0x49, 0x42] } 0 0x4249544D#32 ∧ 0x4249544D#32 ≠ 0x4D544942#32 :=
  ⟨⟨0x4D, 0x54, 0x49, 0x42, by decide⟩, by decide⟩

theorem witness_HdrParseIsParseHeader :
    sample.hdrLen = some 12#32 ∧ headerV1.length = min (12#32).toNat 12 ∧
    ∀ k < headerV1.length, sample.hbuf.read k = headerV1[k]? := by decide

theorem witness_OnlyTheMagicIsAccepted :
    sample.hdrLen = some 12#32 ∧ 4 ≤ (12#32).toNat ∧ sample.hbuf.read 0 = some 0x42#8 ∧ sample.hbuf.read 1 = some 0x49#8 ∧
    sample.hbuf.read 2 = some 0x54#8 ∧ sample.hbuf.read 3 = some 0x4D#8 ∧
    (0x4D#8, 0x54#8, 0x49#8, 0x42#8) ≠ (0x42#8, 0x49#8, 0x54#8, 0x4D#8) := by decide

theorem witness_ShortHeaderIsTruncated :
    (3#32).toNat < 4 ∧ 4 ≤ (4#32).toNat ∧ (4#32).toNat ≤ 11 ∧ (11#32).toNat ≤ 11 ∧
    FieldIs { sample with hdrLen := some 11#32 } 0 0x4D544942#32 :=
  ⟨by decide, by decide, by decide, by decide, 0x42, 0x49, 0x54, 0x4D, by decide⟩

theorem witness_HdrWriteOutcomes :
    State.reset.width = none ∧ sample.width ≠ none ∧ State.reset.height = none ∧
    sample.width = some 4#32 ∧ sample.height = some 2#32 := by decide

/-- `UnpackOutcomes` and `PackOutcomes`: a capacity is exceeded (by one), met exactly, and unbounded. -/
theorem witness_capacities :
    exceeds 2 tight.wordCap = true ∧ exceeds (numPixels 2 1) tight.pixelCap = true ∧
    exceeds (numWords 33 1) tight.wordCap = true ∧
    exceeds (numPixels 1 1) tight.pixelCap = false ∧ exceeds (numWords 32 1) tight.wordCap = false ∧
    exceeds (numPixels 33 1) Config.unbounded.pixelCap = false := by decide

theorem witness_UnpackOutcomes :
    State.reset.wordAvail = none ∧ sample.wordAvail = some 1#64 ∧ (0#64).toNat < numWords 4 2 ∧
    numWords 4 2 ≤ (1#64).toNat ∧ (1#64).toNat < numWords 33 1 ∧ numWords 0 7 ≤ (0#64).toNat := by decide

theorem witness_UnpackOutcomes_unset : (cells [0xFFFFFFFF] : Memory Word).FirstUnset 0 1 ∧ 1 < numWords 33 1 :=
  ⟨⟨by decide, by decide, fun j h1 h2 => by interval_cases j; rfl⟩, by decide⟩

theorem witness_PackOutcomes_unset : (cells [0, 0, 0, 0, 0, 0, 0] : Memory Byte).FirstUnset 0 7 ∧ 7 < numPixels 4 2 :=
  ⟨⟨by decide, by decide, fun j h1 h2 => by interval_cases j <;> rfl⟩, by decide⟩

/-- The words `0x000000FF` and `0xDEADBEFF` agree on the eight bits of a 4 x 2 grid. -/
theorem witness_UnpackIgnoresPaddingAndTrailing :
    (∀ k < numWords 4 2, ∃ u v, sample.wmem.read k = some u ∧
      (cells [0xDEADBEFF, 0x12345678] : Memory Word).read k = some v ∧
      ∀ b < 32, 32 * k + b < numPixels 4 2 → u.getLsbD b = v.getLsbD b) ∧
    ∃ t, exec .unpack sample = .next t := by
  refine ⟨?_, _, rfl⟩
  rw [show numWords 4 2 = 1 by decide, show numPixels 4 2 = 8 by decide]
  intro k hk
  interval_cases k
  refine ⟨0x000000FF, 0xDEADBEFF, rfl, rfl, fun b _ h => ?_⟩
  have h : b < 8 := by omega
  interval_cases b <;> rfl

/-- Also for `UnpackWritesBlackOrWhite`, `PackIgnoresOldWords`, `PackUnpackRoundTrip`, `HeaderRoundTrip`. -/
theorem witness_dimensions_and_OK (i : Instr) :
    sample.width = some 4#32 ∧ sample.height = some 2#32 ∧ ∃ t, exec i sample = .next t ∧ t.status = 0#32 :=
  ⟨rfl, rfl, sample_completes i⟩

theorem witness_PackSeesOnlyZeroAndNonZero :
    (∀ i < numPixels 2 1, ∃ c d : Byte, (cells [1, 0] : Memory Byte).read i = some c ∧
      (cells [255, 0] : Memory Byte).read i = some d ∧ (c = 0#8 ↔ d = 0#8)) ∧
    ∃ t, exec .pack { sample with width := some 2, height := some 1, gmem := cells [1, 0] } = .next t := by
  refine ⟨?_, _, rfl⟩
  rw [show numPixels 2 1 = 2 by decide]
  intro i hi
  interval_cases i
  · exact ⟨1, 255, by decide⟩
  · exact ⟨0, 0, by decide⟩

theorem witness_PackLoopGivesWords : ([0, 255, 0] : List Byte).length = 3 * 1 := by decide

theorem witness_PolarityLaw :
    0 < numWords 33 1 ∧ 1 < numWords 33 1 ∧ ([7, 255] : List Byte).length = numPixels 2 1 ∧
    ∀ d ∈ ([7, 255] : List Byte), d ≠ 0#8 := by decide

theorem witness_PackUnpackRoundTrip_binary :
    (∀ i < numPixels 4 2, sample.gmem.read i = some 0#8 ∨ sample.gmem.read i = some 255#8) ∧
    ([0, 255] : List Byte).length = numPixels 2 1 ∧ ∀ d ∈ ([0, 255] : List Byte), d = 0#8 ∨ d = 255#8 := by decide

/-- Both kinds of fault happen. -/
theorem witness_ExecStopsOnlyOnUnsetCells :
    exec .unpack State.reset = .fault (.unsetOperand .width) ∧
    exec .unpack { sample with wmem := [] } = .fault (.unsetData .wmem 0) := ⟨rfl, rfl⟩

theorem witness_WrittenOperandsNeverFault :
    (∀ k < min (12#32).toNat 12, (sample.hbuf.read k).isSome) ∧ sample.width.isSome ∧ sample.height.isSome ∧
    numWords 4 2 ≤ (1#64).toNat ∧ (∀ k < numWords 4 2, (sample.wmem.read k).isSome) ∧
    (∀ i < numPixels 4 2, (sample.gmem.read i).isSome) := by decide

/-- Every operation has a next state, with `OK` on `sample`; and one with an error: the cases of `ErrorsChangeOnlyStatus`,
`OperationFrames`, `RepeatedOperationChangesNothing`, `UnboundedNeverReportsCapacity`. -/
theorem witness_ErrorsChangeOnlyStatus :
    sample.caps = Config.unbounded ∧
    ∃ t, exec .hdrParse { sample with hdrLen := some 3 } = .next t ∧ t.status ≠ 0#32 := by
  refine ⟨rfl, _, rfl, ?_⟩
  decide

/-- A second state that agrees with `sample` on the operands of every operation and is another state. -/
theorem witness_OperationsReadOnlyOperands :
    let s' : State := { sample with status := 0, wordCount := some 9, wmem := cells [0x000000FF, 7] }
    s' ≠ sample ∧ s'.caps = sample.caps ∧ s'.hdrLen = sample.hdrLen ∧ (∀ k < 12, s'.hbuf.read k = sample.hbuf.read k) ∧
    s'.width = sample.width ∧ s'.height = sample.height ∧ s'.wordAvail = sample.wordAvail ∧
    (∀ k < numWords 4 2, s'.wmem.read k = sample.wmem.read k) ∧
    (∀ i < numPixels 4 2, s'.gmem.read i = sample.gmem.read i) := by decide

/-- Also for `HostNeverWritesReadOnlyRegisters`. -/
theorem witness_StatusIsNotSticky :
    nextForm (line (.wrReg 1 (.d32 9))) = some (.wrReg 1 (.d32 9)) ∧
    (∀ c, HostForm.wrReg 1 (.d32 9) ≠ .cmd c) ∧ HostForm.wrReg 1 (.d32 9) ≠ .reset ∧
    ∃ t, step (line (.wrReg 1 (.d32 9))) = .next t :=
  ⟨rfl, by simp [HostForm.cmd], by simp, _, rfl⟩

theorem witness_HostRegisterWrites :
    (∀ n ∈ [1, 2, 3, 4], nextForm (line (.wrReg n (.d32 7))) = some (.wrReg n (.d32 7))) ∧
    (∀ n ∈ [5, 6], nextForm (line (.wrReg n (.d64 7))) = some (.wrReg n (.d64 7))) := by decide

theorem witness_HostRegisterReads :
    (∀ n ∈ [0, 1, 2, 3, 4, 5, 6], nextForm (line (.rdReg n)) = some (.rdReg n)) ∧
    ({ sample with wordCount := some 1#64 } : State).wordCount = some 1#64 ∧
    regOfNum 6 = some .wordCount ∧ RegUnset (line (.rdReg 6)) .wordCount :=
  ⟨by decide, rfl, rfl, rfl⟩

theorem witness_HostBufferWrites :
    nextForm (line (.wrHbuf 11 [1])) = some (.wrHbuf 11 [1]) ∧ 11 + ([1] : List Byte).length ≤ 12 ∧
    nextForm { line (.wrWmem 0 [1]) with caps := tight } = some (.wrWmem 0 [1]) ∧
    nextForm { line (.wrGmem 0 [1]) with caps := tight } = some (.wrGmem 0 [1]) ∧
    (∀ c, tight.wordCap = some c → 0 + ([1] : List Word).length ≤ c) ∧
    (∀ c, tight.pixelCap = some c → 0 + ([1] : List Byte).length ≤ c) := by
  refine ⟨rfl, by decide, rfl, rfl, ?_, ?_⟩ <;> · rintro c ⟨⟩; decide

theorem witness_HostBufferReads :
    nextForm (line (.rdHbuf 11)) = some (.rdHbuf 11) ∧ (line (.rdHbuf 11)).hbuf.read 11 = some 0#8 ∧
    nextForm (line (.rdWmem 0)) = some (.rdWmem 0) ∧ (line (.rdWmem 0)).wmem.read 0 = some 0x000000FF#32 ∧
    nextForm (line (.rdGmem 7)) = some (.rdGmem 7) ∧ (line (.rdGmem 7)).gmem.read 7 = some 0#8 ∧
    (line (.rdWmem 1)).wmem.read 1 = none ∧ (line (.rdGmem 8)).gmem.read 8 = none ∧ State.reset.hbuf.read 0 = none ∧
    (∀ c, tight.wordCap = some c → 0 < c) := by
  refine ⟨rfl, rfl, rfl, rfl, rfl, rfl, rfl, rfl, rfl, ?_⟩
  rintro c ⟨⟩
  decide

theorem witness_RefusedExactlyWhenIllFormed :
    nextForm (line (.rdReg 7)) = some (.rdReg 7) ∧ HostForm.rdReg 7 ≠ .handGrid ∧ HostForm.rdReg 7 ≠ .emitStream ∧
    (HostForm.rdReg 7).wf sample.caps = false ∧ (HostForm.rdReg 6).wf sample.caps = true := by decide

theorem witness_HostBranchesOnStatus :
    nextForm (line (.bneStatus 5)) = some (.bneStatus 5) ∧ (4#32).extractLsb' 0 3 ≠ 0#3 ∧ (0#32).extractLsb' 0 3 = 0#3 := by
  decide

theorem witness_ResetInputClearsTheBlock : nextForm (line .reset) = some .reset ∧ Reg.width ≠ .cmd ∧ Reg.width ≠ .status := by
  decide

/-- `sample` meets the invariant, whatever the host's program is. -/
theorem sample_inv (f : HostForm) : (line f).Inv where
  hbuf_wf := (by decide : sample.hbuf.wf)
  wmem_wf := (by decide : sample.wmem.wf)
  gmem_wf := (by decide : sample.gmem.wf)
  hbuf_within := by rintro c ⟨⟩; exact (by decide : ∀ p ∈ sample.hbuf, p.1 < 12)
  wmem_within := by rintro c ⟨⟩
  gmem_within := by rintro c ⟨⟩
  status_legal := ⟨.none, rfl⟩
  count_of_dims := by rintro n ⟨⟩

/-- Also for `NothingTakesAValueAway`. -/
theorem witness_StepKeepsInvariant :
    (line (.cmd 0x00000002)).Inv ∧ nextForm (line (.cmd 0x00000002)) ≠ some .reset ∧
    ∃ t, step (line (.cmd 0x00000002)) = .next t ∧ t.wordCount = some 1#64 :=
  ⟨sample_inv _, by decide, _, rfl, rfl⟩

theorem witness_PackedBitInStreamByte : headerV1.length = 12 ∧ 31 < 32 * ([0x80000000] : List Word).length := by decide

/-- The stream of V1. -/
def streamV1 : List Byte := headerV1 ++ [0xFF, 0, 0, 0]

/-- Also for `TruncatedExactlyWhenShort`. -/
theorem witness_DecodeStreamResult :
    let s : State := { sample with hostProg := decodeStream streamV1 }
    s.caps = Config.unbounded ∧ s.hostProg = decodeStream streamV1 ∧ s.hostPos = 0 ∧ parseHeader streamV1 = .ok (4, 2) := by
  decide

/-- The other branches of `DecodeStreamResult` on a host state with capacities for one word and one pixel: a wrong magic, a
header cut short, words past `WORD_CAP`, a word too few, pixels past `PIXEL_CAP`. -/
theorem witness_DecodeStreamResult_failures :
    parseHeader [0x4D, 0x54, 0x49, 0x42] = .error .invalidMagic ∧ parseHeader (headerV1.take 11) = .error .truncated ∧
    exceeds (min ((20 - 12) / 4) (numWords 33 1)) tight.wordCap = true ∧
    exceeds (min ((15 - 12) / 4) (numWords 4 2)) tight.wordCap = false ∧ (15 - 12) / 4 < numWords 4 2 ∧
    ¬ (streamV1.length - 12) / 4 < numWords 4 2 ∧ exceeds (numPixels 4 2) tight.pixelCap = true ∧
    ∀ bytes, ({ sample with caps := tight, hostProg := decodeStream bytes } : State).hostProg = decodeStream bytes :=
  ⟨by decide, by decide, by decide, by decide, by decide, by decide, by decide, fun _ => rfl⟩

/-- A 4 x 2 grid where `GMEM` holds one pixel. -/
theorem witness_EncodeStreamAbovePixelCap :
    let s : State := { sample with caps := tight, hostProg := encodeStream 4 2 (List.replicate 8 0) }
    s.hostProg = encodeStream 4 2 (List.replicate 8 0) ∧ s.hostPos = 0 ∧
    (List.replicate 8 (0#8)).length = numPixels 4 2 ∧ exceeds (numPixels 4 2) s.caps.pixelCap = true := by decide

/-- Also for `StreamRoundTrip`. -/
theorem witness_EncodeStreamResult :
    let s : State := { sample with hostProg := encodeStream 4 2 (List.replicate 8 0) }
    s.caps = Config.unbounded ∧ s.hostProg = encodeStream 4 2 (List.replicate 8 0) ∧ s.hostPos = 0 ∧
    (List.replicate 8 (0#8)).length = numPixels 4 2 ∧ exceeds (numPixels 4 2) s.caps.pixelCap = false ∧
    ∀ d ∈ List.replicate 8 (0#8), d = 0#8 ∨ d = 255#8 := by decide

theorem witness_EncodeStreamResult_capacity :
    exceeds (numPixels 33 1) (some 33) = false ∧ exceeds (numWords 33 1) tight.wordCap = true ∧
    exceeds (numWords 4 2) tight.wordCap = false := by decide

end Sys2Proof.Tests
end

section
/-! PROOFS. The derived counts and the byte assembly of 00_scope.md: exact bounds and exact values. -/

namespace Sys2Proof.Machine

open Sys2Proof

/-! ### Counts and padding (R10, R11) -/

/-- The largest dimension is `2^32 - 1`, so the largest pixel count is its square. -/
theorem numPixels_le (w h : Word) : numPixels w h ≤ 0xFFFFFFFE00000001 := by
  have hw : w.toNat ≤ 2 ^ 32 - 1 := Nat.le_sub_one_of_lt w.isLt
  have hh : h.toNat ≤ 2 ^ 32 - 1 := Nat.le_sub_one_of_lt h.isLt
  calc numPixels w h = w.toNat * h.toNat := rfl
    _ ≤ (2 ^ 32 - 1) * (2 ^ 32 - 1) := Nat.mul_le_mul hw hh
    _ = 0xFFFFFFFE00000001 := by norm_num

theorem ceilWords_mono {m n : Nat} (h : m ≤ n) : ceilWords m ≤ ceilWords n :=
  Nat.div_le_div_right (Nat.add_le_add_right h 31)

theorem numWords_le (w h : Word) : numWords w h ≤ 0x07FFFFFFF0000001 :=
  calc numWords w h = ceilWords (numPixels w h) := rfl
    _ ≤ ceilWords 0xFFFFFFFE00000001 := ceilWords_mono (numPixels_le w h)
    _ = 0x07FFFFFFF0000001 := by norm_num [ceilWords]

/-- The packed words hold the pixels and the padding, exactly. -/
theorem padBits_add_numPixels (w h : Word) : padBits w h + numPixels w h = 32 * numWords w h :=
  Nat.sub_add_cancel ceilWords_le

/-- The padding is shorter than one word. -/
theorem padBits_le (w h : Word) : padBits w h ≤ 31 := by
  have hsum := padBits_add_numPixels w h
  have hbound : 32 * numWords w h < numPixels w h + 32 := ceilWords_bound
  omega

/-- Settles O9: the bounds follow from the largest dimensions, since the rounding up is monotone. -/
theorem countsFitTheirRegisters : Obligations.CountsFitTheirRegisters := fun w h =>
  ⟨rfl, numPixels_le w h, rfl, numWords_le w h, toNat_numWords w h, padBits_add_numPixels w h, padBits_le w h⟩

/-! ### The value of assembled bytes (R12) -/

/-- `LE32` places its bytes side by side, the last byte on top. -/
theorem le32_eq_append (b0 b1 b2 b3 : Byte) : le32 b0 b1 b2 b3 = b3 ++ (b2 ++ (b1 ++ b0)) := by
  apply BitVec.eq_of_getLsbD_eq
  intro i hi
  simp only [le32_getLsbD, BitVec.getLsbD_append]
  grind

/-- Joining bit vectors adds their values, the upper one scaled by the width of the lower. -/
theorem toNat_append_eq_add {m n : Nat} (x : BitVec m) (y : BitVec n) :
    (x ++ y).toNat = 2 ^ n * x.toNat + y.toNat := by
  rw [BitVec.toNat_append, Nat.shiftLeft_eq, Nat.mul_comm, Nat.two_pow_add_eq_or_of_lt y.isLt]

/-- The little-endian value of four bytes. -/
theorem toNat_le32 (b0 b1 b2 b3 : Byte) :
    (le32 b0 b1 b2 b3).toNat = b0.toNat + 256 * b1.toNat + 65536 * b2.toNat + 16777216 * b3.toNat := by
  rw [le32_eq_append]
  simp only [toNat_append_eq_add]
  omega

/-- Settles O10: the value by placing the bytes side by side, the byte order and the identity by the two inverse laws. -/
theorem littleEndianAssembly : Obligations.LittleEndianAssembly :=
  ⟨fun b0 b1 b2 b3 => ⟨toNat_le32 b0 b1 b2 b3, le32Bytes_le32 b0 b1 b2 b3⟩,
    fun v => ⟨_, _, _, _, rfl, le32_of_bytes v⟩⟩

end Sys2Proof.Machine
end

section
/-! PROOFS. The state of 10_state.md: the invariant, what no step takes away, and the host's accesses between operations. -/

namespace Sys2Proof.Machine

open Sys2Proof

/-- Every way a step answers a next state: the program is over, or its next line had its effect. -/
theorem step_next {s t : State} (h : step s = .next t) :
    (nextForm s = none ∧ t = s) ∨ ∃ f, nextForm s = some f ∧ LineEffect s f t := by
  cases hf : nextForm s with
  | none =>
    rw [step_of_done hf] at h
    cases h
    exact .inl ⟨rfl, rfl⟩
  | some f =>
    rw [step_of_nextForm hf] at h
    exact .inr ⟨f, rfl, runForm_effect h⟩

/-! ### The invariant (R26, R30 to R33) -/

/-- The block after reset meets the invariant, whatever its capacities (R170). -/
theorem State.resetWith_inv (caps : Config.Caps) : (State.resetWith caps).Inv where
  hbuf_wf := List.Pairwise.nil
  wmem_wf := List.Pairwise.nil
  gmem_wf := List.Pairwise.nil
  hbuf_within := fun _ _ => by simp [State.resetWith]
  wmem_within := fun _ _ => by simp [State.resetWith]
  gmem_within := fun _ _ => by simp [State.resetWith]
  status_legal := ⟨.none, rfl⟩
  count_of_dims := fun _ => nofun

/-- Settles O2: empty buffers, the code `NONE` and no word count. -/
theorem resetMeetsInvariant : Obligations.ResetMeetsInvariant :=
  ⟨State.resetWith_inv _, State.resetWith_inv⟩

theorem State.Inv.advance {s : State} (hs : s.Inv) : (advance s).Inv := { hs with }

theorem State.Inv.setStatus {s : State} (hs : s.Inv) (c : StatusCode) : (setStatus c s).Inv :=
  { hs with status_legal := ⟨c, rfl⟩ }

theorem State.Inv.resetBlock (s : State) : (resetBlock s).Inv := { State.resetWith_inv s.caps with }

theorem State.Inv.writeHbuf {s : State} (hs : s.Inv) {k : Nat} {bs : List Byte}
    (hk : accessOk .hbuf s.caps k bs.length = true) : State.Inv { s with hbuf := s.hbuf.writeRange k bs } :=
  { hs with
    hbuf_wf := Memory.writeRange_wf hs.hbuf_wf k bs
    hbuf_within := Memory.writeRange_within hs.hbuf_within (accessOk_bound hk) }

theorem State.Inv.writeWmem {s : State} (hs : s.Inv) {k : Nat} {ws : List Word}
    (hk : accessOk .wmem s.caps k ws.length = true) : State.Inv { s with wmem := s.wmem.writeRange k ws } :=
  { hs with
    wmem_wf := Memory.writeRange_wf hs.wmem_wf k ws
    wmem_within := Memory.writeRange_within hs.wmem_within (accessOk_bound hk) }

theorem State.Inv.writeGmem {s : State} (hs : s.Inv) {k : Nat} {ps : List Byte}
    (hk : accessOk .gmem s.caps k ps.length = true) : State.Inv { s with gmem := s.gmem.writeRange k ps } :=
  { hs with
    gmem_wf := Memory.writeRange_wf hs.gmem_wf k ps
    gmem_within := Memory.writeRange_within hs.gmem_within (accessOk_bound hk) }

/-- `WORD_COUNT <- NW(W, H)`; the 64-bit register holds it whole. -/
theorem State.Inv.setWordCount {s : State} (hs : s.Inv) (w h : Word) :
    State.Inv { s with wordCount := some (BitVec.ofNat 64 (numWords w h)) } :=
  { hs with count_of_dims := by rintro n ⟨⟩; exact ⟨w, h, toNat_numWords w h⟩ }

/-- As many elements as the capacity allows may be accessed from index 0 on. -/
theorem accessOk_zero_of_fits {α : Type} {b : Buffer} {caps : Config.Caps} {vs : List α} {n : Nat}
    (hlen : vs.length = n) (hfits : exceeds n (capacityOf b caps) = false) : accessOk b caps 0 vs.length = true := by
  simp [accessOk, hlen, hfits]

/-- An operation writes only what it has checked to fit, and only counts of dimensions. -/
theorem State.Inv.exec {i : Instr} {s t : State} (hs : s.Inv) (h : exec i s = .next t) : t.Inv := by
  obtain ⟨c, -, -, rfl⟩ | ⟨-, w, ht, -, -, -, -, rfl⟩ | ⟨-, w, ht, -, -, rfl⟩ |
    ⟨-, w, ht, a, ws, -, -, -, -, -, hfits, -, rfl⟩ | ⟨-, w, ht, grid, -, -, -, hfits, -, rfl⟩ := exec_next h
  · exact hs.setStatus c
  · exact { (hs.setWordCount w ht).setStatus .ok with }
  · exact { (hs.writeHbuf (k := 0) (bs := writeHeader w ht) rfl).setStatus .ok with }
  · have hk := accessOk_zero_of_fits (b := .gmem) (unpackGrid_length ws _) hfits
    exact ((hs.writeGmem hk).setWordCount w ht).setStatus .ok
  · have hk := accessOk_zero_of_fits (b := .wmem) (packWords_length grid _) hfits
    exact { ((hs.writeWmem hk).setWordCount w ht).setStatus .ok with }

theorem State.Inv.lineEffect {s t : State} {f : HostForm} (hs : s.Inv) (h : LineEffect s f t) : t.Inv := by
  cases h with
  | operation _ h => exact hs.advance.exec h
  | badCommand _ => exact hs.advance.setStatus _
  | hostOnly _ _ p l q => exact { hs with }
  | writeWidth v => exact { hs with }
  | writeHeight v => exact { hs with }
  | writeHdrLen v => exact { hs with }
  | writeWordAvail v => exact { hs with }
  | writeHbuf hk => exact hs.advance.writeHbuf hk
  | writeWmem hk => exact hs.advance.writeWmem hk
  | writeGmem hk => exact hs.advance.writeGmem hk
  | resetInput => exact State.Inv.resetBlock _
  | @load bytes _ n hfits =>
    have hk := accessOk_zero_of_fits (b := .wmem) (streamWords_length bytes _) hfits
    exact { hs.advance.writeWmem hk with }

/-- Settles O44: a finished program stays where it is, and each line's effect keeps the invariant. -/
theorem stepKeepsInvariant : Obligations.StepKeepsInvariant := fun s t hs h => by
  obtain ⟨-, rfl⟩ | ⟨f, -, heff⟩ := step_next h
  · exact hs
  · exact hs.lineEffect heff

/-! ### What a step leaves alone (R24, R34) -/

/-- Settles O35: of the lines left, none names `STATUS` or `WORD_COUNT` in its effect. -/
theorem hostNeverWritesReadOnlyRegisters : Obligations.HostNeverWritesReadOnlyRegisters := by
  intro s t f hf hcmd hreset h
  rw [step_of_nextForm hf] at h
  cases runForm_effect h with
  | operation _ _ => exact absurd rfl (hcmd _)
  | badCommand _ => exact absurd rfl (hcmd _)
  | resetInput => exact absurd rfl hreset
  | hostOnly _ _ p l q => exact ⟨rfl, rfl⟩
  | writeWidth v => exact ⟨rfl, rfl⟩
  | writeHeight v => exact ⟨rfl, rfl⟩
  | writeHdrLen v => exact ⟨rfl, rfl⟩
  | writeWordAvail v => exact ⟨rfl, rfl⟩
  | writeHbuf _ => exact ⟨rfl, rfl⟩
  | writeWmem _ => exact ⟨rfl, rfl⟩
  | writeGmem _ => exact ⟨rfl, rfl⟩
  | load n _ => exact ⟨rfl, rfl⟩

/-- From `s` to `t` the capacities stay and nothing that held a value lost it (R34), field by field. -/
structure State.KeepsValues (s t : State) : Prop where
  caps : t.caps = s.caps
  width : t.width = none → s.width = none
  height : t.height = none → s.height = none
  hdrLen : t.hdrLen = none → s.hdrLen = none
  wordAvail : t.wordAvail = none → s.wordAvail = none
  wordCount : t.wordCount = none → s.wordCount = none
  hbuf : ∀ k, t.hbuf.read k = none → s.hbuf.read k = none
  wmem : ∀ k, t.wmem.read k = none → s.wmem.read k = none
  gmem : ∀ k, t.gmem.read k = none → s.gmem.read k = none

theorem State.KeepsValues.refl (s : State) : s.KeepsValues s :=
  ⟨rfl, id, id, id, id, id, fun _ => id, fun _ => id, fun _ => id⟩

theorem State.KeepsValues.regUnset {s t : State} (hk : s.KeepsValues t) : ∀ r, RegUnset t r → RegUnset s r
  | .cmd => id
  | .status => id
  | .width => hk.width
  | .height => hk.height
  | .hdrLen => hk.hdrLen
  | .wordAvail => hk.wordAvail
  | .wordCount => hk.wordCount

theorem State.KeepsValues.cellUnset {s t : State} (hk : s.KeepsValues t) : ∀ b k, CellUnset t b k → CellUnset s b k
  | .hbuf => hk.hbuf
  | .wmem => hk.wmem
  | .gmem => hk.gmem

/-- A cell without a value after a write held none before. -/
theorem Memory.read_eq_none_of_writeRange {α : Type} {m : Memory α} {a : Nat} {vs : List α} (k : Nat)
    (h : (m.writeRange a vs).read k = none) : m.read k = none := by
  rw [Memory.read_writeRange] at h
  split at h
  · rw [List.getElem?_eq_none_iff] at h
    omega
  · exact h

theorem State.KeepsValues.exec {i : Instr} {s t : State} (h : exec i s = .next t) : s.KeepsValues t := by
  have hrefl := State.KeepsValues.refl s
  obtain ⟨c, -, -, rfl⟩ | ⟨-, w, ht, -, -, -, -, rfl⟩ | ⟨-, w, ht, -, -, rfl⟩ |
    ⟨-, w, ht, a, ws, -, -, -, -, -, -, -, rfl⟩ | ⟨-, w, ht, grid, -, -, -, -, -, rfl⟩ := exec_next h
  · exact { hrefl with }
  · exact { hrefl with width := nofun, height := nofun, wordCount := nofun }
  · exact { hrefl with hbuf := Memory.read_eq_none_of_writeRange, hdrLen := nofun }
  · exact { hrefl with gmem := Memory.read_eq_none_of_writeRange, wordCount := nofun }
  · exact { hrefl with wmem := Memory.read_eq_none_of_writeRange, wordCount := nofun, wordAvail := nofun }

theorem State.KeepsValues.lineEffect {s t : State} {f : HostForm} (h : LineEffect s f t) (hf : f ≠ .reset) :
    s.KeepsValues t := by
  have hrefl := State.KeepsValues.refl s
  cases h with
  | operation _ h => exact { State.KeepsValues.exec h with }
  | badCommand _ => exact { hrefl with }
  | hostOnly _ _ p l q => exact { hrefl with }
  | writeWidth v => exact { hrefl with width := nofun }
  | writeHeight v => exact { hrefl with height := nofun }
  | writeHdrLen v => exact { hrefl with hdrLen := nofun }
  | writeWordAvail v => exact { hrefl with wordAvail := nofun }
  | writeHbuf _ => exact { hrefl with hbuf := Memory.read_eq_none_of_writeRange }
  | writeWmem _ => exact { hrefl with wmem := Memory.read_eq_none_of_writeRange }
  | writeGmem _ => exact { hrefl with gmem := Memory.read_eq_none_of_writeRange }
  | resetInput => exact absurd rfl hf
  | load n _ => exact { hrefl with wmem := Memory.read_eq_none_of_writeRange, wordAvail := nofun }

/-- Settles O45: the reset input keeps the capacities, and every other line keeps the values too. -/
theorem nothingTakesAValueAway : Obligations.NothingTakesAValueAway := fun s t h => by
  obtain ⟨-, rfl⟩ | ⟨f, hf, heff⟩ := step_next h
  · exact ⟨rfl, fun _ => ⟨fun _ => id, fun _ _ => id⟩⟩
  · by_cases hreset : f = .reset
    · subst hreset
      cases heff with
      | resetInput => exact ⟨rfl, fun hne => absurd hf hne⟩
      | hostOnly _ hne => exact absurd rfl hne
    · have hkeeps := State.KeepsValues.lineEffect heff hreset
      exact ⟨hkeeps.caps, fun _ => ⟨hkeeps.regUnset, hkeeps.cellUnset⟩⟩

/-! ### The host's register accesses (R24, R25, R35) -/

/-- A line that writes a register other than `CMD` is that register's write. -/
theorem step_wrReg {s : State} {n : Nat} {r : Reg} {d : Datum} (h : nextForm s = some (.wrReg n d))
    (hn : regOfNum n = some r) (hr : r ≠ .cmd) : step s = writeReg r d (advance s) := by
  rw [step_of_nextForm h]
  simp only [runForm, hostWriteReg, hn]

/-- A line that reads a register is that register's read, kept by the host. -/
theorem step_rdReg {s : State} {n : Nat} {r : Reg} (h : nextForm s = some (.rdReg n)) (hn : regOfNum n = some r) :
    step s = readReg r (advance s) (logRead (advance s)) := by
  rw [step_of_nextForm h]
  simp only [runForm, hostReadReg, hn]

/-- Settles O37: each register's own write, in the order of their numbers. -/
theorem hostRegisterWrites : Obligations.HostRegisterWrites := fun _ _ _ =>
  ⟨fun h => step_wrReg h rfl nofun, fun h => step_wrReg h rfl nofun, fun h => step_wrReg h rfl nofun,
    fun h => step_wrReg h rfl nofun, fun h => step_wrReg h rfl nofun, fun h => step_wrReg h rfl nofun⟩

theorem readReg_of_unset {r : Reg} {s : State} (h : RegUnset s r) (k : Datum → Result) :
    readReg r s k = .fault (.unsetOperand r) := by
  cases r with
  | cmd => exact absurd h id
  | status => exact absurd h id
  | width => simp [readReg, show s.width = none from h]
  | height => simp [readReg, show s.height = none from h]
  | hdrLen => simp [readReg, show s.hdrLen = none from h]
  | wordAvail => simp [readReg, show s.wordAvail = none from h]
  | wordCount => simp [readReg, show s.wordCount = none from h]

/-- Settles O38: `CMD` and `STATUS` always read, every other register where it holds a value. -/
theorem hostRegisterReads : Obligations.HostRegisterReads := fun s =>
  ⟨fun h => step_rdReg h rfl,
    fun h => step_rdReg h rfl,
    fun _ h hv => (step_rdReg h rfl).trans (withOperand_of_eq hv),
    fun _ h hv => (step_rdReg h rfl).trans (withOperand_of_eq hv),
    fun _ h hv => (step_rdReg h rfl).trans (withOperand_of_eq hv),
    fun _ h hv => (step_rdReg h rfl).trans (withOperand_of_eq hv),
    fun _ h hv => (step_rdReg h rfl).trans (withOperand_of_eq hv),
    fun _ r h hr hunset => (step_rdReg h hr).trans (readReg_of_unset (s := advance s) (r := r) hunset _)⟩

/-! ### The host's buffer accesses (R31 to R33, R35) -/

theorem step_wrHbuf {s : State} {k : Nat} {bs : List Byte} (h : nextForm s = some (.wrHbuf k bs))
    (hk : k + bs.length ≤ 12) : step s = .next { advance s with hbuf := s.hbuf.writeRange k bs } :=
  (step_of_nextForm h).trans (withAccess_of_le (by rintro c ⟨⟩; exact hk) _)

theorem step_wrWmem {s : State} {k : Nat} {ws : List Word} (h : nextForm s = some (.wrWmem k ws))
    (hk : ∀ c, s.caps.wordCap = some c → k + ws.length ≤ c) :
    step s = .next { advance s with wmem := s.wmem.writeRange k ws } :=
  (step_of_nextForm h).trans (withAccess_of_le (b := .wmem) (s := advance s) hk _)

theorem step_wrGmem {s : State} {k : Nat} {ps : List Byte} (h : nextForm s = some (.wrGmem k ps))
    (hk : ∀ c, s.caps.pixelCap = some c → k + ps.length ≤ c) :
    step s = .next { advance s with gmem := s.gmem.writeRange k ps } :=
  (step_of_nextForm h).trans (withAccess_of_le (b := .gmem) (s := advance s) hk _)

/-- Settles O39: the access is inside the buffer, and a written range reads back as written. -/
theorem hostBufferWrites : Obligations.HostBufferWrites := fun _ _ _ _ =>
  ⟨fun h hk => ⟨_, step_wrHbuf h hk, rfl, Memory.read_writeRange _ _ _⟩,
    fun h hk => ⟨_, step_wrWmem h hk, rfl, Memory.read_writeRange _ _ _⟩,
    fun h hk => ⟨_, step_wrGmem h hk, rfl, Memory.read_writeRange _ _ _⟩⟩

theorem step_rdHbuf {s : State} {k : Nat} (h : nextForm s = some (.rdHbuf k)) (hk : k < 12) :
    step s = withCell .hbuf s.hbuf k fun v => logRead (advance s) (.d8 v) :=
  (step_of_nextForm h).trans (withAccess_of_le (by rintro c ⟨⟩; exact hk) _)

theorem step_rdWmem {s : State} {k : Nat} (h : nextForm s = some (.rdWmem k))
    (hk : ∀ c, s.caps.wordCap = some c → k < c) :
    step s = withCell .wmem s.wmem k fun v => logRead (advance s) (.d32 v) :=
  (step_of_nextForm h).trans (withAccess_of_le (b := .wmem) (k := k) (n := 1) (s := advance s) hk _)

theorem step_rdGmem {s : State} {k : Nat} (h : nextForm s = some (.rdGmem k))
    (hk : ∀ c, s.caps.pixelCap = some c → k < c) :
    step s = withCell .gmem s.gmem k fun v => logRead (advance s) (.d8 v) :=
  (step_of_nextForm h).trans (withAccess_of_le (b := .gmem) (k := k) (n := 1) (s := advance s) hk _)

/-- Settles O40: inside the capacity a read is the read of its cell. -/
theorem hostBufferReads : Obligations.HostBufferReads := fun _ _ =>
  ⟨fun h hk => ⟨fun _ hv => (step_rdHbuf h hk).trans (withCell_of_read hv),
      fun hv => (step_rdHbuf h hk).trans (withCell_of_unset hv)⟩,
    fun h hk => ⟨fun _ hv => (step_rdWmem h hk).trans (withCell_of_read hv),
      fun hv => (step_rdWmem h hk).trans (withCell_of_unset hv)⟩,
    fun h hk => ⟨fun _ hv => (step_rdGmem h hk).trans (withCell_of_read hv),
      fun hv => (step_rdGmem h hk).trans (withCell_of_unset hv)⟩⟩

/-! ### A grid that `GMEM` cannot hold (R35, R159) -/

/-- More elements than the capacity may not be accessed, from whatever index. -/
theorem accessOk_of_exceeds {b : Buffer} {caps : Config.Caps} {n : Nat} (k : Nat)
    (h : exceeds n (capacityOf b caps) = true) : accessOk b caps k n = false := by
  obtain ⟨c, hc, hlt⟩ := exceeds_eq_true_iff.1 h
  simp only [accessOk, hc, exceeds_some, Bool.or_eq_false_iff, beq_eq_false_iff_ne, Bool.not_eq_false',
    decide_eq_true_eq]
  omega

/-- A host write of more pixels than `GMEM` holds is refused. -/
theorem step_wrGmem_refused {s : State} {k : Nat} {ps : List Byte} (h : nextForm s = some (.wrGmem k ps))
    (hps : exceeds ps.length s.caps.pixelCap = true) : step s = .refused (.outsideCapacity .gmem k) :=
  (step_of_nextForm h).trans (withAccess_refused_iff.2 (.inl ⟨accessOk_of_exceeds k hps, rfl⟩))

theorem run_succ_of_refused {k : Nat} {s : State} {q : Refusal} (h : step s = .refused q) :
    Host.Core.run Sys2Proof.core (k + 1) s = .refused q := by
  have hcore : Sys2Proof.core.step s = .refused q := h
  simp only [Host.Core.run, hcore]

/-- Settles O51: two register writes, then the refused write of the grid, which ends the run. -/
theorem encodeStreamAbovePixelCap : Obligations.EncodeStreamAbovePixelCap := fun s w h grid hprog hpos hlen hcap => by
  have hline : ∀ k, s.hostProg[s.hostPos + k]? = (encodeStream w h grid)[k]? := fun k => by
    rw [hprog, hpos, Nat.zero_add]
  have hwidth : step s = .next { advance s with width := some w } :=
    step_wrReg (r := .width) (d := .d32 w) (hline 0) rfl nofun
  have hheight : step { advance s with width := some w } =
      .next { advance (advance s) with width := some w, height := some h } :=
    step_wrReg (r := .height) (d := .d32 h) (hline 1) rfl nofun
  have hgrid : step { advance (advance s) with width := some w, height := some h } =
      .refused (.outsideCapacity .gmem 0) :=
    step_wrGmem_refused (hline 2) (hlen ▸ hcap)
  refine ⟨_, _, hwidth, hheight, hgrid, ?_⟩
  rw [run_succ_of_step hwidth, run_succ_of_step hheight, run_succ_of_refused hgrid]

end Sys2Proof.Machine
end

section
/-! PROOFS. The operands and results of 20_memory.md: what each operation writes and reads, that repeating one changes
nothing, and where a packed bit stands in a stream. -/

namespace Sys2Proof.Machine

open Sys2Proof

/-! ### What each operation writes (R54) -/

theorem hdrParse_frame {s t : State} (h : exec .hdrParse s = .next t) :
    t = { s with width := t.width, height := t.height, wordCount := t.wordCount, status := t.status } := by
  obtain ⟨c, -, -, rfl⟩ | ⟨-, w, ht, -, -, -, -, rfl⟩ | ⟨⟨⟩, -⟩ | ⟨⟨⟩, -⟩ | ⟨⟨⟩, -⟩ := exec_next h
  · rfl
  · rfl

theorem hdrWrite_frame {s t : State} (h : exec .hdrWrite s = .next t) :
    t = { s with hbuf := t.hbuf, hdrLen := t.hdrLen, status := t.status } ∧
    ∀ k, 12 ≤ k → t.hbuf.read k = s.hbuf.read k := by
  obtain ⟨w, ht, -, -, rfl⟩ := execHdrWrite_next h
  exact ⟨rfl, fun k hk => Memory.read_writeRange_outside s.hbuf (.inr (by simpa using hk))⟩

theorem unpack_frame {s t : State} (h : exec .unpack s = .next t) :
    t = { s with gmem := t.gmem, wordCount := t.wordCount, status := t.status } ∧
    ∀ w h, s.width = some w → s.height = some h → ∀ i, numPixels w h ≤ i → t.gmem.read i = s.gmem.read i := by
  obtain ⟨c, -, -, rfl⟩ | ⟨⟨⟩, -⟩ | ⟨⟨⟩, -⟩ | ⟨-, w, ht, a, ws, hw, hht, -, -, -, -, -, rfl⟩ | ⟨⟨⟩, -⟩ := exec_next h
  · exact ⟨rfl, fun _ _ _ _ _ _ => rfl⟩
  · refine ⟨rfl, fun w' ht' hw' hht' i hi => ?_⟩
    cases hw.symm.trans hw'
    cases hht.symm.trans hht'
    exact Memory.read_writeRange_outside s.gmem (.inr (by simpa using hi))

theorem pack_frame {s t : State} (h : exec .pack s = .next t) :
    t = { s with wmem := t.wmem, wordCount := t.wordCount, wordAvail := t.wordAvail, status := t.status } ∧
    ∀ w h, s.width = some w → s.height = some h → ∀ k, numWords w h ≤ k → t.wmem.read k = s.wmem.read k := by
  obtain ⟨c, -, -, rfl⟩ | ⟨⟨⟩, -⟩ | ⟨⟨⟩, -⟩ | ⟨⟨⟩, -⟩ | ⟨-, w, ht, grid, hw, hht, -, -, -, rfl⟩ := exec_next h
  · exact ⟨rfl, fun _ _ _ _ _ _ => rfl⟩
  · refine ⟨rfl, fun w' ht' hw' hht' k hk => ?_⟩
    cases hw.symm.trans hw'
    cases hht.symm.trans hht'
    exact Memory.read_writeRange_outside s.wmem (.inr (by simpa using hk))

/-- Settles O31: an error writes `STATUS` alone, a success the fields of its own update and a range of one buffer. -/
theorem operationFrames : Obligations.OperationFrames := fun _ _ =>
  ⟨hdrParse_frame, hdrWrite_frame, unpack_frame, pack_frame⟩

/-! ### What each operation reads (R54) -/

theorem statusWord_eq_zero_iff {c : StatusCode} : statusWord c = 0#32 ↔ c = .ok := by
  cases c <;> decide

/-- The same error in any two states: the same status, and no result to compare. -/
theorem raise_reads_nothing {c : StatusCode} {s t : State} (s' : State) {Q : State → Prop} (hc : c ≠ .ok)
    (h : t = setStatus c s) :
    ∃ t', raise c s' = .next t' ∧ t'.status = t.status ∧ (t.status = 0#32 → Q t') := by
  subst h
  exact ⟨_, rfl, rfl, fun hok => absurd (statusWord_eq_zero_iff.1 hok) hc⟩

/-- A header field is determined by the four bytes it is made of. -/
theorem FieldIs.congr {s s' : State} {k : Nat} {v : Word} (h : FieldIs s k v)
    (hread : ∀ j < k + 4, s'.hbuf.read j = s.hbuf.read j) : FieldIs s' k v := by
  obtain ⟨b0, b1, b2, b3, h0, h1, h2, h3, hv⟩ := h
  exact ⟨b0, b1, b2, b3, (hread _ (by omega)).trans h0, (hread _ (by omega)).trans h1, (hread _ (by omega)).trans h2,
    (hread _ (by omega)).trans h3, hv⟩

/-- Buffers that agree below `n` give the same range from 0 on. -/
theorem Memory.readRange_zero_congr {α : Type} {m m' : Memory α} {n : Nat} (h : ∀ k < n, m'.read k = m.read k) :
    m'.readRange 0 n = m.readRange 0 n :=
  Memory.readRange_congr m' m 0 n fun i hi => h (0 + i) (by omega)

/-- Writing the same values to two buffers makes them agree on the cells written. -/
theorem Memory.read_writeRange_agree {α : Type} (m m' : Memory α) {vs : List α} {n k : Nat} (hlen : vs.length = n)
    (hk : k < n) : (m'.writeRange 0 vs).read k = (m.writeRange 0 vs).read k := by
  have hin : 0 ≤ k ∧ k < 0 + vs.length := ⟨Nat.zero_le k, by omega⟩
  rw [Memory.read_writeRange, Memory.read_writeRange, if_pos hin, if_pos hin]

theorem hdrParse_reads_operands {s s' t : State} (hlen : s'.hdrLen = s.hdrLen)
    (hread : ∀ k < 12, s'.hbuf.read k = s.hbuf.read k) (h : exec .hdrParse s = .next t) :
    ∃ t', exec .hdrParse s' = .next t' ∧ t'.status = t.status ∧
      (t.status = 0#32 → t'.width = t.width ∧ t'.height = t.height ∧ t'.wordCount = t.wordCount) := by
  have hfield : ∀ {k v}, k + 4 ≤ 12 → FieldIs s k v → FieldIs s' k v := fun hk hv =>
    hv.congr fun j hj => hread j (by omega)
  obtain ⟨len, hl, hcases⟩ := execHdrParse_next h
  rw [exec_hdrParse_eq (hlen.trans hl)]
  obtain ⟨hshort, ht⟩ | ⟨hlong, m, hm, hcases⟩ := hcases
  · rw [if_pos hshort]
    exact raise_reads_nothing s' nofun ht
  rw [if_neg (by omega), withField_of_fieldIs (hfield (by omega) hm)]
  obtain ⟨hmagic, ht⟩ | ⟨rfl, hpart, ht⟩ | ⟨rfl, hwhole, w, ht, hw, hht, rfl⟩ := hcases
  · rw [if_pos hmagic]
    exact raise_reads_nothing s' nofun ht
  · rw [if_neg (not_not_intro rfl), if_pos hpart]
    exact raise_reads_nothing s' nofun ht
  · rw [if_neg (not_not_intro rfl), if_neg (by omega), withField_of_fieldIs (hfield (by omega) hw),
      withField_of_fieldIs (hfield (by omega) hht)]
    exact ⟨_, rfl, rfl, fun _ => ⟨rfl, rfl, rfl⟩⟩

theorem hdrWrite_reads_operands {s s' t : State} (hwidth : s'.width = s.width) (hheight : s'.height = s.height)
    (h : exec .hdrWrite s = .next t) :
    ∃ t', exec .hdrWrite s' = .next t' ∧ t'.status = t.status ∧ t'.hdrLen = t.hdrLen ∧
      ∀ k < 12, t'.hbuf.read k = t.hbuf.read k := by
  obtain ⟨w, ht, hw, hht, rfl⟩ := execHdrWrite_next h
  exact ⟨_, exec_hdrWrite_eq (hwidth.trans hw) (hheight.trans hht), rfl, rfl, fun _ hk =>
    Memory.read_writeRange_agree s.hbuf s'.hbuf (writeHeader_length w ht) hk⟩

theorem unpack_reads_operands {s s' t : State} {w ht : Word} (hcaps : s'.caps = s.caps) (hw : s.width = some w)
    (hht : s.height = some ht) (hwidth : s'.width = s.width) (hheight : s'.height = s.height)
    (havail : s'.wordAvail = s.wordAvail) (hread : ∀ k < numWords w ht, s'.wmem.read k = s.wmem.read k)
    (h : exec .unpack s = .next t) :
    ∃ t', exec .unpack s' = .next t' ∧ t'.status = t.status ∧
      (t.status = 0#32 →
        t'.wordCount = t.wordCount ∧ ∀ i < numPixels w ht, t'.gmem.read i = t.gmem.read i) := by
  obtain ⟨-, -, a, -, -, ha, -⟩ := execUnpack_next h
  rw [exec_unpack_eq hw hht ha] at h
  rw [exec_unpack_eq (hwidth.trans hw) (hheight.trans hht) (havail.trans ha), hcaps]
  split_ifs at h ⊢ with hcap hshort hpixels
  · exact raise_reads_nothing s' nofun ((raise_eq_next _ _ _).1 h)
  · exact raise_reads_nothing s' nofun ((raise_eq_next _ _ _).1 h)
  · exact raise_reads_nothing s' nofun ((raise_eq_next _ _ _).1 h)
  obtain ⟨ws, hws, h⟩ := withCells_next h
  rw [withCells_of_read ((Memory.readRange_zero_congr hread).trans hws)]
  cases h
  exact ⟨_, rfl, rfl, fun _ => ⟨rfl, fun _ hi =>
    Memory.read_writeRange_agree s.gmem s'.gmem (unpackGrid_length ws _) hi⟩⟩

theorem pack_reads_operands {s s' t : State} {w ht : Word} (hcaps : s'.caps = s.caps) (hw : s.width = some w)
    (hht : s.height = some ht) (hwidth : s'.width = s.width) (hheight : s'.height = s.height)
    (hread : ∀ i < numPixels w ht, s'.gmem.read i = s.gmem.read i) (h : exec .pack s = .next t) :
    ∃ t', exec .pack s' = .next t' ∧ t'.status = t.status ∧
      (t.status = 0#32 → t'.wordCount = t.wordCount ∧ t'.wordAvail = t.wordAvail ∧
        ∀ k < numWords w ht, t'.wmem.read k = t.wmem.read k) := by
  rw [exec_pack_eq hw hht] at h
  rw [exec_pack_eq (hwidth.trans hw) (hheight.trans hht), hcaps]
  split_ifs at h ⊢ with hpixels hwords
  · exact raise_reads_nothing s' nofun ((raise_eq_next _ _ _).1 h)
  · exact raise_reads_nothing s' nofun ((raise_eq_next _ _ _).1 h)
  obtain ⟨grid, hgrid, h⟩ := withCells_next h
  rw [withCells_of_read ((Memory.readRange_zero_congr hread).trans hgrid)]
  cases h
  exact ⟨_, rfl, rfl, fun _ => ⟨rfl, rfl, fun _ hk =>
    Memory.read_writeRange_agree s.wmem s'.wmem (packWords_length grid _) hk⟩⟩

/-- Settles O32: both states take the same branch, and a success writes values that depend on the operands alone. -/
theorem operationsReadOnlyOperands : Obligations.OperationsReadOnlyOperands := fun _ _ _ hcaps =>
  ⟨hdrParse_reads_operands, hdrWrite_reads_operands, fun _ _ => unpack_reads_operands hcaps,
    fun _ _ => pack_reads_operands hcaps⟩

/-! ### The same operation again (R53) -/

/-- No operation reads `STATUS`, and each one overwrites it. -/
theorem exec_setStatus (i : Instr) (c : StatusCode) (s : State) : exec i (setStatus c s) = exec i s := by
  cases i with
  | hdrParse => rfl
  | hdrWrite => rfl
  | unpack => rfl
  | pack => rfl

/-- `HDR.PARSE` of a whole header with the magic succeeds. -/
theorem exec_hdrParse_parsed {s : State} {len w ht : Word} (hlen : s.hdrLen = some len) (h12 : headerLength len = 12)
    (hmagic : FieldIs s 0 magic) (hw : FieldIs s 4 w) (hht : FieldIs s 8 ht) :
    exec .hdrParse s = .next (parsed s w ht) := by
  rw [exec_hdrParse_eq hlen, if_neg (by omega), withField_of_fieldIs hmagic, if_neg (not_not_intro rfl),
    if_neg (by omega), withField_of_fieldIs hw, withField_of_fieldIs hht]
  rfl

/-- `UNPACK` of words that are there, into a grid that fits, succeeds. -/
theorem exec_unpack_unpacked {s : State} {w ht : Word} {a : DWord} {ws : List Word} (hw : s.width = some w)
    (hht : s.height = some ht) (ha : s.wordAvail = some a) (hcap : exceeds a.toNat s.caps.wordCap = false)
    (henough : numWords w ht ≤ a.toNat) (hfits : exceeds (numPixels w ht) s.caps.pixelCap = false)
    (hws : s.wmem.readRange 0 (numWords w ht) = .ok ws) : exec .unpack s = .next (unpacked s w ht ws) := by
  rw [exec_unpack_eq hw hht ha, if_neg (by simp [hcap]), if_neg (by omega), if_neg (by simp [hfits]),
    withCells_of_read hws]

/-- `PACK` of pixels that are there, into words that fit, succeeds. -/
theorem exec_pack_packed {s : State} {w ht : Word} {grid : List Byte} (hw : s.width = some w)
    (hht : s.height = some ht) (hpixels : exceeds (numPixels w ht) s.caps.pixelCap = false)
    (hwords : exceeds (numWords w ht) s.caps.wordCap = false)
    (hgrid : s.gmem.readRange 0 (numPixels w ht) = .ok grid) : exec .pack s = .next (packed s w ht grid) := by
  rw [exec_pack_eq hw hht, if_neg (by simp [hpixels]), if_neg (by simp [hwords]), withCells_of_read hgrid]

theorem Memory.writeRange_again {α : Type} (m : Memory α) (a : Nat) (vs : List α) :
    (m.writeRange a vs).writeRange a vs = m.writeRange a vs := Memory.writeRange_writeRange m a vs vs rfl

theorem parsed_parsed (s : State) (w ht : Word) : parsed (parsed s w ht) w ht = parsed s w ht := rfl

theorem written_written (s : State) (w ht : Word) : written (written s w ht) w ht = written s w ht := by
  simp [written, setStatus, Memory.writeRange_again]

theorem unpacked_unpacked (s : State) (w ht : Word) (ws : List Word) :
    unpacked (unpacked s w ht ws) w ht ws = unpacked s w ht ws := by
  simp [unpacked, setStatus, Memory.writeRange_again]

theorem packed_packed (s : State) (w ht : Word) (grid : List Byte) :
    packed (packed s w ht grid) w ht grid = packed s w ht grid := by
  simp [packed, setStatus, Memory.writeRange_again]

/-- Settles O33: an error leaves everything it decided on, and a success leaves its operands, so it writes the same again. -/
theorem repeatedOperationChangesNothing : Obligations.RepeatedOperationChangesNothing := fun i s t h => by
  obtain ⟨c, -, -, rfl⟩ | ⟨rfl, w, ht, hm, hw, hht, ⟨len, hlen, h12⟩, rfl⟩ | ⟨rfl, w, ht, hw, hht, rfl⟩ |
    ⟨rfl, w, ht, a, ws, hw, hht, ha, hcap, henough, hfits, hws, rfl⟩ |
    ⟨rfl, w, ht, grid, hw, hht, hpixels, hwords, hgrid, rfl⟩ := exec_next h
  · rw [exec_setStatus, h]
  · rw [exec_hdrParse_parsed (s := parsed s w ht) hlen h12 hm hw hht, parsed_parsed]
  · rw [exec_hdrWrite_eq (s := written s w ht) hw hht, written_written]
  · rw [exec_unpack_unpacked (s := unpacked s w ht ws) hw hht ha hcap henough hfits hws, unpacked_unpacked]
  · rw [exec_pack_packed (s := packed s w ht grid) hw hht hpixels hwords hgrid, packed_packed]

/-! ### Packed bits in a stream (R42, R45, R48) -/

/-- Byte `j` of a word's four is its bits from `8j` on. -/
theorem le32Bytes_getElem? (v : Word) {j : Nat} (hj : j < 4) : (le32Bytes v)[j]? = some (v.extractLsb' (8 * j) 8) := by
  obtain rfl | rfl | rfl | rfl : j = 0 ∨ j = 1 ∨ j = 2 ∨ j = 3 := by omega
  · rfl
  · rfl
  · rfl
  · rfl

/-- The words' bytes in a row: byte `4k + j` is byte `j` of word `k`. -/
theorem flatMap_le32Bytes_getElem? {words : List Word} {k j : Nat} (hk : k < words.length) (hj : j < 4) :
    (words.flatMap le32Bytes)[4 * k + j]? = some (words[k].extractLsb' (8 * j) 8) := by
  induction words generalizing k with
  | nil => exact absurd hk (Nat.not_lt_zero k)
  | cons v words ih =>
    rw [List.flatMap_cons]
    cases k with
    | zero =>
      rw [Nat.mul_zero, Nat.zero_add, List.getElem?_append_left (by rwa [le32Bytes_length])]
      exact le32Bytes_getElem? v hj
    | succ k =>
      rw [List.getElem?_append_right (by rw [le32Bytes_length]; omega), le32Bytes_length,
        show 4 * (k + 1) + j - 4 = 4 * k + j by omega]
      exact ih (Nat.lt_of_succ_lt_succ hk)

/-- Settles O46: byte `i div 8` of the words is byte `i div 8 mod 4` of word `i div 32`, whose bits start at 8 times that. -/
theorem packedBitInStreamByte : Obligations.PackedBitInStreamByte := fun header words i hheader hi => by
  have hk : i / 32 < words.length := by omega
  refine ⟨words[i / 32].extractLsb' (8 * (i / 8 % 4)) 8, ?_, ?_⟩
  · rw [List.getElem?_append_right (by omega), hheader, show 12 + i / 8 - 12 = 4 * (i / 32) + i / 8 % 4 by omega]
    exact flatMap_le32Bytes_getElem? hk (Nat.mod_lt _ (by decide))
  · rw [bitGet_eq, List.getElem?_eq_getElem hk, BitVec.getLsbD_extractLsb',
      show 8 * (i / 8 % 4) + i % 8 = i % 32 by omega]
    simp [Nat.mod_lt i (show 8 > 0 by decide)]

end Sys2Proof.Machine
end

section
/-! PROOFS. The command word of 30_encoding.md: its two fields, the decoder, and the step that issues one. -/

namespace Sys2Proof.Machine

open Sys2Proof

/-! ### The fields of a command word (R25, R60) -/

theorem opField_getLsbD (c : Word) (b : Nat) : (opField c).getLsbD b = (decide (b < 2) && c.getLsbD b) := by
  rw [opField, BitVec.getLsbD_extractLsb', Nat.zero_add]

theorem reservedField_getLsbD (c : Word) (b : Nat) :
    (reservedField c).getLsbD b = (decide (b < 30) && c.getLsbD (2 + b)) := by
  rw [reservedField, BitVec.getLsbD_extractLsb']

/-- The field `OP` is bits 1 and 0. -/
theorem opField_eq_bits (c : Word) : opField c = BitVec.ofBool (c.getLsbD 1) ++ BitVec.ofBool (c.getLsbD 0) := by
  apply BitVec.eq_of_getLsbD_eq
  intro b hb
  rw [opField_getLsbD, BitVec.getLsbD_append, BitVec.getLsbD_ofBool, BitVec.getLsbD_ofBool]
  obtain rfl | rfl : b = 0 ∨ b = 1 := by omega
  · simp
  · simp

/-- The reserved field is zero exactly when each of bits 31 to 2 is clear. -/
theorem reservedField_eq_zero_iff (c : Word) :
    reservedField c = 0 ↔ ∀ b, 2 ≤ b → b < 32 → c.getLsbD b = false := by
  constructor
  · intro h b h2 h32
    have hbit := reservedField_getLsbD c (b - 2)
    rw [h, show 2 + (b - 2) = b by omega] at hbit
    simpa [show b - 2 < 30 by omega] using hbit.symm
  · intro h
    apply BitVec.eq_of_getLsbD_eq
    intro b hb
    rw [reservedField_getLsbD, h (2 + b) (by omega) (by omega)]
    simp

/-- A command word is its two fields side by side. -/
theorem reservedField_append_opField (c : Word) : reservedField c ++ opField c = c := by
  apply BitVec.eq_of_getLsbD_eq
  intro b hb
  rw [BitVec.getLsbD_append, opField_getLsbD, reservedField_getLsbD]
  by_cases h : b < 2
  · simp [h]
  · simp [h, show b - 2 < 30 by omega, show 2 + (b - 2) = b by omega]

/-! ### Decoding against encoding (R61 to R63) -/

theorem decode_eq_ok_iff {c : Word} {i : Instr} :
    decode c = .ok i ↔ reservedField c = 0 ∧ decodeOp (opField c) = i := by
  unfold decode
  split_ifs with h
  · exact iff_of_false nofun fun ⟨hzero, _⟩ => h hzero
  · simp [not_not.1 h]

/-- The law of the command word, over every operation. -/
theorem commandWord_statement (i : Instr) : Laws.CommandWord.Statement i := by
  cases i with
  | hdrParse => exact Laws.CommandWord.hdrParse
  | hdrWrite => exact Laws.CommandWord.hdrWrite
  | unpack => exact Laws.CommandWord.unpack
  | pack => exact Laws.CommandWord.pack

theorem decode_encode (i : Instr) : decode (encode i) = .ok i := by
  obtain ⟨-, -, hdecode⟩ := commandWord_statement i
  exact hdecode

/-- The command word of the operation that a value of `OP` selects is that value under a zero reserved field. -/
theorem encode_decodeOp : ∀ op : BitVec 2, encode (decodeOp op) = (0 : BitVec 30) ++ op := by decide

theorem encode_of_decode {c : Word} {i : Instr} (h : decode c = .ok i) : c = encode i := by
  obtain ⟨hreserved, rfl⟩ := decode_eq_ok_iff.1 h
  calc c = reservedField c ++ opField c := (reservedField_append_opField c).symm
    _ = (0 : BitVec 30) ++ opField c := by rw [hreserved]
    _ = encode (decodeOp (opField c)) := (encode_decodeOp _).symm

/-- Settles O6: the four words are the command words of the four operations. -/
theorem commandWordsSelect : Obligations.CommandWordsSelect :=
  ⟨decode_encode .hdrParse, decode_encode .hdrWrite, decode_encode .unpack, decode_encode .pack⟩

/-- Settles O7: a word that decodes is its fields side by side, so it is the command word of what it decodes to. -/
theorem decodeInvertsEncode : Obligations.DecodeInvertsEncode := fun _ i =>
  ⟨encode_of_decode, fun h => h ▸ decode_encode i⟩

/-! ### The step that issues a command word (R60, R63) -/

/-- A line that writes `CMD` issues its word. -/
theorem step_cmd {s : State} {c : Word} (h : nextForm s = some (.cmd c)) : step s = issue c (advance s) :=
  step_of_nextForm h

theorem issue_of_decode {c : Word} {i : Instr} (h : decode c = .ok i) (s : State) : issue c s = exec i s := by
  obtain ⟨hreserved, rfl⟩ := decode_eq_ok_iff.1 h
  rw [issue_eq, if_neg (not_not_intro hreserved)]

/-- Settles O4: the line issues its word, and issuing a word that decodes is the operation. -/
theorem stepRunsIssuedOperation : Obligations.StepRunsIssuedOperation := fun s _ _ hline hdecode =>
  (step_cmd hline).trans (issue_of_decode hdecode (advance s))

/-- Loading the 32-bit number of a word places the `CMD` write of that word. -/
theorem withFetchWord_toNat (s : State) (c : Word) : s.withFetchWord 32 c.toNat = placeForm (.cmd c) s := by
  rw [State.withFetchWord, Nat.mod_eq_of_lt c.isLt, BitVec.ofNat_toNat, BitVec.setWidth_eq]

theorem nextForm_withFetchWord (s : State) (c : Word) : nextForm (s.withFetchWord 32 c.toNat) = some (.cmd c) := by
  rw [withFetchWord_toNat, nextForm_placeForm]

/-- Settles O5: the placed line writes the operation's command word, and placing a line changes the host's program alone. -/
theorem placedWordRuns : Obligations.PlacedWordRuns := fun s i =>
  ⟨stepRunsIssuedOperation _ _ i (nextForm_withFetchWord s (encode i)) (decode_encode i), _, _, rfl⟩

/-- Settles O8: the step issues the word; its reserved field is zero exactly when bits 31 to 2 are clear, and its field `OP`
is bits 1 and 0. -/
theorem reservedBitsGiveBadCommand : Obligations.ReservedBitsGiveBadCommand := by
  intro c s hline
  rw [step_cmd hline, issue_eq]
  constructor
  · rintro ⟨b, h2, h32, hbit⟩
    have hreserved : reservedField c ≠ 0 := fun h0 => by
      simp [(reservedField_eq_zero_iff c).1 h0 b h2 h32] at hbit
    rw [if_pos hreserved]
    rfl
  · intro hclear
    rw [if_neg (not_not_intro ((reservedField_eq_zero_iff c).2 hclear)), opField_eq_bits]
    cases c.getLsbD 1 with
    | false =>
      cases c.getLsbD 0 with
      | false => rfl
      | true => rfl
    | true =>
      cases c.getLsbD 0 with
      | false => rfl
      | true => rfl

end Sys2Proof.Machine
end

section
/-! PROOFS. The header of 40_header.md: the parser's function, every outcome of `HDR.PARSE` and of `HDR.WRITE`, and the round
trip of the two. -/

namespace Sys2Proof.Machine

open Sys2Proof

/-! ### The parser's function (R80) -/

theorem parseHeader_of_short {bs : List Byte} (h : bs.length < 4) : parseHeader bs = .error .truncated := by
  unfold parseHeader
  split
  · simp only [List.length_cons] at h
    omega
  · rfl

theorem parseHeader_of_wrongMagic {b0 b1 b2 b3 : Byte} (rest : List Byte) (h : le32 b0 b1 b2 b3 ≠ magic) :
    parseHeader (b0 :: b1 :: b2 :: b3 :: rest) = .error .invalidMagic := if_pos h

theorem parseHeader_of_cut {b0 b1 b2 b3 : Byte} {rest : List Byte} (h : le32 b0 b1 b2 b3 = magic)
    (hcut : rest.length < 8) : parseHeader (b0 :: b1 :: b2 :: b3 :: rest) = .error .truncated := by
  refine (if_neg (not_not_intro h)).trans ?_
  split
  · simp only [List.length_cons] at hcut
    omega
  · rfl

theorem parseHeader_of_whole {b0 b1 b2 b3 : Byte} (b4 b5 b6 b7 b8 b9 b10 b11 : Byte) (more : List Byte)
    (h : le32 b0 b1 b2 b3 = magic) :
    parseHeader (b0 :: b1 :: b2 :: b3 :: b4 :: b5 :: b6 :: b7 :: b8 :: b9 :: b10 :: b11 :: more) =
      .ok (le32 b4 b5 b6 b7, le32 b8 b9 b10 b11) := if_neg (not_not_intro h)

/-- Settles O11: one equation per case of the function. -/
theorem parseHeaderFunction : Obligations.ParseHeaderFunction := by
  refine fun bs => ⟨parseHeader_of_short, ?_⟩
  rintro b0 b1 b2 b3 rest rfl
  refine ⟨parseHeader_of_wrongMagic rest, fun hmagic hlen => parseHeader_of_cut hmagic ?_, ?_⟩
  · simp only [List.length_cons] at hlen
    omega
  · rintro hmagic b4 b5 b6 b7 b8 b9 b10 b11 more rfl
    exact parseHeader_of_whole b4 b5 b6 b7 b8 b9 b10 b11 more hmagic

/-- The parser reads back what the writer built. -/
@[simp] theorem parseHeader_writeHeader (w h : Word) : parseHeader (writeHeader w h) = .ok (w, h) := by
  have hparse := parseHeader_of_whole (w.extractLsb' 0 8) (w.extractLsb' 8 8) (w.extractLsb' 16 8) (w.extractLsb' 24 8)
    (h.extractLsb' 0 8) (h.extractLsb' 8 8) (h.extractLsb' 16 8) (h.extractLsb' 24 8) [] (le32_of_bytes magic)
  rwa [le32_of_bytes, le32_of_bytes] at hparse

/-! ### The header's bytes and fields -/

/-- Only the bytes `42 49 54 4D` assemble to the magic (R82). -/
theorem le32_eq_magic_iff {b0 b1 b2 b3 : Byte} :
    le32 b0 b1 b2 b3 = magic ↔ (b0, b1, b2, b3) = (0x42#8, 0x49#8, 0x54#8, 0x4D#8) := by
  rw [← le32_magic]
  constructor
  · intro h
    obtain ⟨rfl, rfl, rfl, rfl⟩ := le32_inj h
    rfl
  · rintro ⟨⟩
    rfl

theorem exists_four_cons {α : Type} {l : List α} (h : 4 ≤ l.length) :
    ∃ a b c d rest, l = a :: b :: c :: d :: rest := by
  match l with
  | a :: b :: c :: d :: rest => exact ⟨a, b, c, d, rest, rfl⟩

/-- Four bytes of a list that `HBUF` holds are a field. -/
theorem fieldIs_of_bytes {s : State} {bs : List Byte} {k : Nat} {b0 b1 b2 b3 : Byte}
    (hread : ∀ j < bs.length, s.hbuf.read j = bs[j]?) (h0 : bs[k]? = some b0) (h1 : bs[k + 1]? = some b1)
    (h2 : bs[k + 2]? = some b2) (h3 : bs[k + 3]? = some b3) : FieldIs s k (le32 b0 b1 b2 b3) := by
  have hcell : ∀ {j b}, bs[j]? = some b → s.hbuf.read j = some b := fun h =>
    (hread _ (List.getElem?_eq_some_iff.1 h).1).trans h
  exact ⟨b0, b1, b2, b3, hcell h0, hcell h1, hcell h2, hcell h3, rfl⟩

/-- Where the first cell without a value lies past a field, the field is there, and the cell is first after it too. -/
theorem Memory.FirstUnset.field {s : State} {a k : Nat} (h : s.hbuf.FirstUnset a k) (hk : a + 4 ≤ k) :
    ∃ v, FieldIs s a v ∧ s.hbuf.FirstUnset (a + 4) k := by
  obtain ⟨-, hunset, hbefore⟩ := h
  have hcell : ∀ j, a ≤ j → j < k → ∃ b, s.hbuf.read j = some b := fun j h1 h2 =>
    Option.isSome_iff_exists.1 (hbefore j h1 h2)
  obtain ⟨b0, h0⟩ := hcell a (by omega) (by omega)
  obtain ⟨b1, h1⟩ := hcell (a + 1) (by omega) (by omega)
  obtain ⟨b2, h2⟩ := hcell (a + 2) (by omega) (by omega)
  obtain ⟨b3, h3⟩ := hcell (a + 3) (by omega) (by omega)
  exact ⟨_, ⟨b0, b1, b2, b3, h0, h1, h2, h3, rfl⟩, hk, hunset, fun j h1 h2 => hbefore j (by omega) h2⟩

/-! ### The outcomes of `HDR.PARSE` (R81) -/

theorem withOperand_of_unset {n : Nat} {r : Reg} {v : Option (BitVec n)} {k : BitVec n → Result} (h : v = none) :
    withOperand r v k = .fault (.unsetOperand r) := by
  rw [h, withOperand_none]

theorem headerLength_lt_iff {len : Word} {n : Nat} (hn : n ≤ 12) : headerLength len < n ↔ len.toNat < n := by
  unfold headerLength Config.headerBytes
  omega

theorem headerLength_of_le {len : Word} (h : 12 ≤ len.toNat) : headerLength len = 12 := Nat.min_eq_right h

section Parse

variable {s : State} {len : Word} (hlen : s.hdrLen = some len)

include hlen

theorem exec_hdrParse_short (h : len.toNat < 4) : exec .hdrParse s = .next (setStatus .truncated s) := by
  rw [exec_hdrParse_eq hlen, if_pos ((headerLength_lt_iff (by omega)).2 h)]
  rfl

theorem exec_hdrParse_unsetMagic {k : Nat} (h : 4 ≤ len.toNat) (hk : k < 4) (hunset : s.hbuf.FirstUnset 0 k) :
    exec .hdrParse s = .fault (.unsetData .hbuf k) := by
  rw [exec_hdrParse_eq hlen, if_neg ((headerLength_lt_iff (by omega)).not.2 (by omega)),
    withField_of_firstUnset hunset (by omega)]

theorem exec_hdrParse_wrongMagic {m : Word} (h : 4 ≤ len.toNat) (hm : FieldIs s 0 m) (hmagic : m ≠ magic) :
    exec .hdrParse s = .next (setStatus .invalidMagic s) := by
  rw [exec_hdrParse_eq hlen, if_neg ((headerLength_lt_iff (by omega)).not.2 (by omega)), withField_of_fieldIs hm,
    if_pos hmagic]
  rfl

theorem exec_hdrParse_cut (h : 4 ≤ len.toNat) (hcut : len.toNat < 12) (hm : FieldIs s 0 magic) :
    exec .hdrParse s = .next (setStatus .truncated s) := by
  rw [exec_hdrParse_eq hlen, if_neg ((headerLength_lt_iff (by omega)).not.2 (by omega)), withField_of_fieldIs hm,
    if_neg (not_not_intro rfl), if_pos ((headerLength_lt_iff (by omega)).2 hcut)]
  rfl

/-- A whole header with the magic: what remains is to read the dimensions. -/
theorem exec_hdrParse_whole (h : 12 ≤ len.toNat) (hm : FieldIs s 0 magic) :
    exec .hdrParse s = withField s 4 fun w => withField s 8 fun ht => .next (parsed s w ht) := by
  have h12 := headerLength_of_le h
  rw [exec_hdrParse_eq hlen, if_neg (by omega), withField_of_fieldIs hm, if_neg (not_not_intro rfl),
    if_neg (by omega)]
  rfl

theorem exec_hdrParse_unsetDims {k : Nat} (h : 12 ≤ len.toNat) (hm : FieldIs s 0 magic) (hk : k < 12)
    (hunset : s.hbuf.FirstUnset 4 k) : exec .hdrParse s = .fault (.unsetData .hbuf k) := by
  rw [exec_hdrParse_whole hlen h hm]
  by_cases hwidth : k < 8
  · exact withField_of_firstUnset hunset hwidth
  · obtain ⟨w, hw, hunset⟩ := hunset.field (by omega)
    rw [withField_of_fieldIs hw, withField_of_firstUnset hunset (by omega)]

end Parse

/-- Settles O12: the checks in R154's order, one lemma per outcome. -/
theorem hdrParseOutcomes : Obligations.HdrParseOutcomes := fun _ =>
  ⟨withOperand_of_unset,
    fun _ hlen => ⟨exec_hdrParse_short hlen, fun h4 =>
      ⟨fun _ hk => exec_hdrParse_unsetMagic hlen h4 hk,
        fun _ => exec_hdrParse_wrongMagic hlen h4,
        fun hm hcut => exec_hdrParse_cut hlen h4 hcut hm,
        fun hm h12 =>
          ⟨fun _ hk => exec_hdrParse_unsetDims hlen h12 hm hk,
            fun _ _ => exec_hdrParse_parsed hlen (headerLength_of_le h12) hm⟩⟩⟩⟩

/-- Settles O15: the two outcomes of O12 that report `TRUNCATED`. -/
theorem shortHeaderIsTruncated : Obligations.ShortHeaderIsTruncated := fun _ _ hlen =>
  ⟨exec_hdrParse_short hlen, fun h4 h11 => exec_hdrParse_cut hlen h4 (by omega)⟩

/-- Settles O14: only `42 49 54 4D` assemble to the magic, and of the ways to a next state only another first field reports
`INVALID_MAGIC`. -/
theorem onlyTheMagicIsAccepted : Obligations.OnlyTheMagicIsAccepted := by
  intro s len b0 b1 b2 b3 hlen h4 h0 h1 h2 h3
  have hfield : FieldIs s 0 (le32 b0 b1 b2 b3) := ⟨b0, b1, b2, b3, h0, h1, h2, h3, rfl⟩
  constructor
  · intro hbytes
    exact exec_hdrParse_wrongMagic hlen h4 hfield (le32_eq_magic_iff.not.2 hbytes)
  · intro hbytes t ht
    have hmagic : FieldIs s 0 magic := le32_eq_magic_iff.2 hbytes ▸ hfield
    obtain ⟨_, -, ⟨-, rfl⟩ | ⟨-, m, hm, ⟨hwrong, -⟩ | ⟨-, -, rfl⟩ | ⟨-, -, _, _, -, -, rfl⟩⟩⟩ := execHdrParse_next ht
    · exact (by decide : statusWord .truncated ≠ 1#32)
    · exact absurd (hm.unique hmagic) hwrong
    · exact (by decide : statusWord .truncated ≠ 1#32)
    · exact (by decide : statusWord .ok ≠ 1#32)

/-- Settles O13: the operation and the function decide by the same length and the same first field, and read the dimensions
from the same bytes. -/
theorem hdrParseIsParseHeader : Obligations.HdrParseIsParseHeader := by
  intro s len bs hlen hbs hread
  by_cases hshort : len.toNat < 4
  · rw [exec_hdrParse_short hlen hshort, parseHeader_of_short (by omega)]
    rfl
  obtain ⟨b0, b1, b2, b3, rest, rfl⟩ := exists_four_cons (l := bs) (by omega)
  have hfield : FieldIs s 0 (le32 b0 b1 b2 b3) := fieldIs_of_bytes hread rfl rfl rfl rfl
  have hrest : rest.length + 4 = min len.toNat 12 := hbs
  by_cases hmagic : le32 b0 b1 b2 b3 = magic
  · by_cases hcut : len.toNat < 12
    · rw [exec_hdrParse_cut hlen (by omega) hcut (hmagic ▸ hfield), parseHeader_of_cut hmagic (by omega)]
      rfl
    · obtain ⟨b4, b5, b6, b7, rest, rfl⟩ := exists_four_cons (l := rest) (by omega)
      have hrest : rest.length + 8 = min len.toNat 12 := hbs
      obtain ⟨b8, b9, b10, b11, more, rfl⟩ := exists_four_cons (l := rest) (by omega)
      rw [exec_hdrParse_parsed hlen (headerLength_of_le (by omega)) (hmagic ▸ hfield)
          (fieldIs_of_bytes hread rfl rfl rfl rfl) (fieldIs_of_bytes hread rfl rfl rfl rfl),
        parseHeader_of_whole b4 b5 b6 b7 b8 b9 b10 b11 more hmagic]
      rfl
  · rw [exec_hdrParse_wrongMagic hlen (by omega) hfield hmagic, parseHeader_of_wrongMagic rest hmagic]
    rfl

/-! ### The outcomes of `HDR.WRITE` (R87, R88) -/

/-- `HBUF` after `HDR.WRITE`: the header in its twelve bytes. -/
theorem written_hbuf_read (s : State) (w h : Word) (k : Nat) :
    (written s w h).hbuf.read k = if k < 12 then (writeHeader w h)[k]? else s.hbuf.read k := by
  simp [written, Memory.read_writeRange]

/-- Settles O16: the two operands in their order, then the one write of the header. -/
theorem hdrWriteOutcomes : Obligations.HdrWriteOutcomes := by
  refine fun s => ⟨withOperand_of_unset, fun hw hh => ?_, fun w h hw hh =>
    ⟨written s w h, exec_hdrWrite_eq hw hh, rfl, fun k => ?_⟩⟩
  · obtain ⟨w, hw⟩ := Option.ne_none_iff_exists'.1 hw
    exact (withOperand_of_eq hw).trans (withOperand_of_unset hh)
  · rw [written_hbuf_read, writeHeader_eq]
    rfl

/-! ### The round trip (R90) -/

/-- Parsing dimensions that the registers hold already changes `WORD_COUNT` and `STATUS` alone. -/
theorem parsed_of_same_dims {s : State} {w h : Word} (hw : s.width = some w) (hh : s.height = some h) :
    parsed s w h = { s with wordCount := some (BitVec.ofNat 64 (numWords w h)), status := 0#32 } := by
  rw [parsed, ← hw, ← hh]
  rfl

/-- `HDR.PARSE` after `HDR.WRITE` is the parser's function on the writer's bytes. -/
theorem exec_hdrParse_written (s : State) (w h : Word) :
    exec .hdrParse (written s w h) = .next (parsed (written s w h) w h) := by
  have hread : ∀ k < (writeHeader w h).length, (written s w h).hbuf.read k = (writeHeader w h)[k]? := fun k hk => by
    rw [written_hbuf_read, if_pos (show k < 12 from hk)]
  have hparse := hdrParseIsParseHeader (written s w h) 12#32 (writeHeader w h) rfl rfl hread
  rw [parseHeader_writeHeader] at hparse
  exact hparse

/-- Settles O17: the function of the writer's bytes gives the dimensions back, and by O13 the operation is that function. -/
theorem headerRoundTrip : Obligations.HeaderRoundTrip :=
  ⟨parseHeader_writeHeader, fun s w h hw hh =>
    ⟨written s w h, parsed (written s w h) w h, exec_hdrWrite_eq hw hh, exec_hdrParse_written s w h,
      parsed_of_same_dims hw hh, hw.symm, hh.symm⟩⟩

end Sys2Proof.Machine
end

section
/-! PROOFS. Unpacking of 41_unpack.md: the loop and the one-step grid, every outcome of `UNPACK`, and the bits it does not
inspect. -/

namespace Sys2Proof.Machine

open Sys2Proof

/-! ### The loop and the grid (R100, R107) -/

/-- A grid of `m + n` pixels is its first `m` pixels and then the `n` after them. -/
theorem unpackGrid_add (ws : List Word) (m n : Nat) :
    unpackGrid ws (m + n) = unpackGrid ws m ++ (List.range n).map fun i => toDisplay (bitGet ws (m + i)) := by
  simp [unpackGrid, List.range_add]

/-- The loop's last row stands after the rows before it. -/
theorem unpackLoop_succ (ws : List Word) (w h : Nat) :
    unpackLoop ws w (h + 1) = unpackLoop ws w h ++ (List.range w).map fun x => toDisplay (bitGet ws (h * w + x)) := by
  simp [unpackLoop, lin, List.range_succ]

/-- Settles O21, by induction on the rows: row `h` is pixels `h*w` to `h*w + w - 1` of the grid. -/
theorem unpackLoopGivesGrid : Obligations.UnpackLoopGivesGrid := by
  intro ws w h
  induction h with
  | zero => rfl
  | succ h ih =>
    calc unpackLoop ws w (h + 1)
      _ = unpackGrid ws (w * h) ++ (List.range w).map fun x => toDisplay (bitGet ws (w * h + x)) := by
        rw [unpackLoop_succ, ih, Nat.mul_comm h w]
      _ = unpackGrid ws (w * (h + 1)) := (unpackGrid_add ws (w * h) w).symm

/-! ### The packed bits of the words read (R13, R46) -/

/-- Every pixel has its packed bit in a word below the word count. -/
theorem div_lt_numWords {w h : Word} {i : Nat} (hi : i < numPixels w h) : i / 32 < numWords w h := by
  unfold numWords ceilWords
  omega

/-- Packed bit `i` of the words read from `WMEM` is bit `i mod 32` of the word that cell `i div 32` holds. -/
theorem bitGet_of_readRange {m : Memory Word} {n i : Nat} {ws : List Word} {v : Word} (hws : m.readRange 0 n = .ok ws)
    (hi : i / 32 < n) (hv : m.read (i / 32) = some v) : bitGet ws i = v.getLsbD (i % 32) := by
  obtain ⟨-, hcells⟩ := (m.readRange_ok_iff 0 n ws).1 hws
  have hword : ws[i / 32]? = some v := by rw [← hcells _ hi, Nat.zero_add, hv]
  rw [bitGet_eq, hword]

/-- A range whose cells all hold a value reads. -/
theorem Memory.exists_readRange {α : Type} {m : Memory α} {n : Nat} (h : ∀ k < n, (m.read k).isSome) :
    ∃ vs, m.readRange 0 n = .ok vs := by
  cases hr : m.readRange 0 n with
  | ok vs => exact ⟨vs, rfl⟩
  | error k =>
    obtain ⟨-, hk, hunset, -⟩ := (m.readRange_error_iff 0 n k).1 hr
    have hset := h k (by omega)
    simp [hunset] at hset

/-- `GMEM` after a successful `UNPACK`: the grid below `W*H`, and what it held from there on. -/
theorem unpacked_gmem_read (s : State) (w h : Word) (ws : List Word) (i : Nat) :
    (unpacked s w h ws).gmem.read i =
      if i < numPixels w h then some (toDisplay (bitGet ws i)) else s.gmem.read i := by
  simp only [unpacked, setStatus_gmem, Memory.read_writeRange, unpackGrid_length, Nat.zero_le, true_and, Nat.zero_add,
    Nat.sub_zero]
  exact if_ctx_congr Iff.rfl (fun hi => unpackGrid_getElem? ws hi) fun _ => rfl

/-! ### The outcomes of `UNPACK` (R101) -/

section Outcomes

variable {s : State} {w h : Word} {a : DWord} (hw : s.width = some w) (hh : s.height = some h)
  (ha : s.wordAvail = some a)

include hw hh ha

theorem exec_unpack_badCommand (hcap : exceeds a.toNat s.caps.wordCap = true) :
    exec .unpack s = .next (setStatus .badCommand s) := by
  rw [exec_unpack_eq hw hh ha, if_pos hcap]
  rfl

theorem exec_unpack_truncated (hcap : exceeds a.toNat s.caps.wordCap = false) (hshort : a.toNat < numWords w h) :
    exec .unpack s = .next (setStatus .truncated s) := by
  rw [exec_unpack_eq hw hh ha, hcap, if_neg Bool.false_ne_true, if_pos hshort]
  rfl

theorem exec_unpack_capacity (hcap : exceeds a.toNat s.caps.wordCap = false) (henough : numWords w h ≤ a.toNat)
    (hpixels : exceeds (numPixels w h) s.caps.pixelCap = true) :
    exec .unpack s = .next (setStatus .capacity s) := by
  rw [exec_unpack_eq hw hh ha, hcap, if_neg Bool.false_ne_true, if_neg henough.not_gt, if_pos hpixels]
  rfl

theorem exec_unpack_unsetWord {k : Nat} (hcap : exceeds a.toNat s.caps.wordCap = false)
    (henough : numWords w h ≤ a.toNat) (hfits : exceeds (numPixels w h) s.caps.pixelCap = false)
    (hk : k < numWords w h) (hunset : s.wmem.FirstUnset 0 k) : exec .unpack s = .fault (.unsetData .wmem k) := by
  rw [exec_unpack_eq hw hh ha, hcap, if_neg Bool.false_ne_true, if_neg henough.not_gt, hfits,
    if_neg Bool.false_ne_true, withCells_of_firstUnset hunset (by omega)]

end Outcomes

/-- The pixels that `UNPACK` writes from the words that `WMEM` holds. -/
theorem unpacked_gmem_read_of_holds {s : State} {w h : Word} {words : Nat → Word} {ws : List Word}
    (hholds : s.wmem.Holds (numWords w h) words) (hws : s.wmem.readRange 0 (numWords w h) = .ok ws) (i : Nat) :
    (unpacked s w h ws).gmem.read i =
      if i < numPixels w h then some (if (words (i / 32)).getLsbD (i % 32) then 0#8 else 255#8)
      else s.gmem.read i := by
  rw [unpacked_gmem_read]
  refine if_ctx_congr Iff.rfl (fun hi => ?_) fun _ => rfl
  have hk := div_lt_numWords hi
  rw [bitGet_of_readRange hws hk (hholds _ hk), toDisplay]

/-- Settles O18: the operands in their order, then the checks in R154's order, one lemma per outcome. -/
theorem unpackOutcomes : Obligations.UnpackOutcomes := by
  refine fun s => ⟨withOperand_of_unset, fun hw hh => ?_, fun hw hh ha => ?_, fun w h a hw hh ha =>
    ⟨fun hcap => exec_unpack_badCommand hw hh ha (exceeds_eq_true_iff.2 hcap), fun hcap => ?_⟩⟩
  · obtain ⟨w, hw⟩ := Option.ne_none_iff_exists'.1 hw
    exact (withOperand_of_eq hw).trans (withOperand_of_unset hh)
  · obtain ⟨w, hw⟩ := Option.ne_none_iff_exists'.1 hw
    obtain ⟨h, hh⟩ := Option.ne_none_iff_exists'.1 hh
    exact (withOperand_of_eq hw).trans ((withOperand_of_eq hh).trans (withOperand_of_unset ha))
  · have hcap := exceeds_eq_false_iff.2 hcap
    refine ⟨exec_unpack_truncated hw hh ha hcap, fun henough =>
      ⟨fun hpixels => exec_unpack_capacity hw hh ha hcap henough (exceeds_eq_true_iff.2 hpixels), fun hfits => ?_⟩⟩
    have hfits := exceeds_eq_false_iff.2 hfits
    refine ⟨fun k => exec_unpack_unsetWord hw hh ha hcap henough hfits, fun words hholds => ?_⟩
    obtain ⟨ws, hws⟩ := Memory.exists_readRange fun k hk => Option.isSome_iff_exists.2 ⟨_, hholds k hk⟩
    exact ⟨_, exec_unpack_unpacked hw hh ha hcap henough hfits hws, rfl, unpacked_gmem_read_of_holds hholds hws⟩

/-- Settles O20: an error reports no `OK`, and a success writes display values below `W*H` alone. -/
theorem unpackWritesBlackOrWhite : Obligations.UnpackWritesBlackOrWhite := by
  intro s t w h hw hh hexec hok
  obtain ⟨c, hc, -, rfl⟩ | ⟨⟨⟩, -⟩ | ⟨⟨⟩, -⟩ | ⟨-, w', h', a, ws, hw', hh', -, -, -, -, -, rfl⟩ | ⟨⟨⟩, -⟩ :=
    exec_next hexec
  · exact absurd (statusWord_eq_zero_iff.1 hok) hc
  · cases hw.symm.trans hw'
    cases hh.symm.trans hh'
    refine ⟨fun i hi => ?_, fun i hi => ?_⟩
    · rw [unpacked_gmem_read, if_pos hi]
      exact (toDisplay_cases _).imp (congrArg some) (congrArg some)
    · rw [unpacked_gmem_read, if_neg hi.not_gt]

/-! ### The bits that `UNPACK` does not inspect (R103) -/

/-- A grid is determined by its packed bits. -/
theorem unpackGrid_congr {ws ws' : List Word} {n : Nat} (h : ∀ i < n, bitGet ws i = bitGet ws' i) :
    unpackGrid ws n = unpackGrid ws' n :=
  List.map_congr_left fun i hi => congrArg toDisplay (h i (List.mem_range.1 hi))

/-- Words that agree on the bits below `W*H` unpack to the same grid, each state keeping its own `WMEM`. -/
theorem unpacked_with_wmem (s : State) (m : Memory Word) {w h : Word} {ws ws' : List Word}
    (hbits : ∀ i < numPixels w h, bitGet ws' i = bitGet ws i) :
    unpacked { s with wmem := m } w h ws' = { unpacked s w h ws with wmem := m } := by
  rw [unpacked, unpackGrid_congr hbits]
  rfl

/-- Settles O19: the checks read no word, and the grid depends on the bits below `W*H` alone. -/
theorem unpackIgnoresPaddingAndTrailing : Obligations.UnpackIgnoresPaddingAndTrailing := by
  intro s t m w h hw hh hagree hexec
  obtain ⟨w', h', a, hw', hh', ha, hcases⟩ := execUnpack_next hexec
  cases hw.symm.trans hw'
  cases hh.symm.trans hh'
  obtain ⟨hcap, rfl⟩ | ⟨hcap, hshort, rfl⟩ | ⟨hcap, henough, hpixels, rfl⟩ |
    ⟨hcap, henough, hfits, ws, hws, rfl⟩ := hcases
  · exact exec_unpack_badCommand (s := { s with wmem := m }) hw hh ha hcap
  · exact exec_unpack_truncated (s := { s with wmem := m }) hw hh ha hcap hshort
  · exact exec_unpack_capacity (s := { s with wmem := m }) hw hh ha hcap henough hpixels
  · obtain ⟨ws', hws'⟩ := Memory.exists_readRange (m := m) (n := numWords w h) fun k hk => by
      obtain ⟨_, v, -, hv, -⟩ := hagree k hk
      exact Option.isSome_iff_exists.2 ⟨v, hv⟩
    rw [exec_unpack_unpacked (s := { s with wmem := m }) hw hh ha hcap henough hfits hws',
      unpacked_with_wmem s m fun i hi => ?_]
    have hk := div_lt_numWords hi
    obtain ⟨u, v, hu, hv, huv⟩ := hagree _ hk
    rw [bitGet_of_readRange hws hk hu, bitGet_of_readRange hws' hk hv,
      huv (i % 32) (Nat.mod_lt i (by decide)) (by omega)]

end Sys2Proof.Machine
end

section
/-! PROOFS. Packing of 42_pack.md: the packed bits of words, the loop and the one-step words, every outcome of `PACK`, what it
does not depend on, and the round trip through `UNPACK`. -/

namespace Sys2Proof.Machine

open Sys2Proof

/-! ### Lanes of a grid (R49, R120) -/

/-- A packed bit is set exactly where the grid has a black pixel. -/
theorem laneBit_eq_true_iff {g : List Byte} {i : Nat} : laneBit g i = true ↔ g[i]? = some 0#8 := by
  unfold laneBit
  cases g[i]? with
  | none => simp
  | some d => simp [toBit]

theorem laneBit_map_range (g : Nat → Byte) (n i : Nat) :
    laneBit ((List.range n).map g) i = decide (i < n ∧ g i = 0#8) := by
  rw [Bool.eq_iff_iff, laneBit_eq_true_iff]
  simp [List.getElem?_eq_some_iff]

theorem laneBit_replicate_zero (n i : Nat) : laneBit (List.replicate n 0#8) i = decide (i < n) := by
  rw [Bool.eq_iff_iff, laneBit_eq_true_iff, List.getElem?_replicate]
  simp

theorem laneBit_of_nonzero {g : List Byte} (h : ∀ d ∈ g, d ≠ 0#8) (i : Nat) : laneBit g i = false :=
  Bool.eq_false_iff.2 fun hi => h _ (List.mem_of_getElem? (laneBit_eq_true_iff.1 hi)) rfl

/-- The packed words depend on the lanes alone. -/
theorem packWords_congr {g g' : List Byte} (h : ∀ i, laneBit g i = laneBit g' i) (n : Nat) :
    packWords g n = packWords g' n :=
  List.map_congr_left fun k _ => BitVec.eq_of_getLsbD_eq fun b _ => by
    rw [packWord_getLsbD, packWord_getLsbD, h]

/-! ### Packed bits of words (R13) -/

/-- Words are determined by their packed bits. -/
theorem words_ext {ws us : List Word} (hlen : ws.length = us.length)
    (h : ∀ i, i / 32 < us.length → bitGet ws i = bitGet us i) : ws = us := by
  refine List.ext_getElem hlen fun k hk hk' => BitVec.eq_of_getLsbD_eq fun b hb => ?_
  have hdiv : (32 * k + b) / 32 = k := by omega
  have hmod : (32 * k + b) % 32 = b := by omega
  have hbit := h (32 * k + b) (by omega)
  simpa only [bitGet_eq, hdiv, hmod, List.getElem?_eq_getElem hk, List.getElem?_eq_getElem hk'] using hbit

@[simp] theorem bitGet_replicate_zero (n i : Nat) : bitGet (List.replicate n 0#32) i = false := by
  rw [bitGet_eq, List.getElem?_replicate]
  by_cases h : i / 32 < n
  · simp [h]
  · simp [h]

@[simp] theorem bitSet_length (ws : List Word) (i : Nat) : (bitSet ws i).length = ws.length := by simp [bitSet]

/-- One bit at position `i` of a word. -/
theorem getLsbD_one_shiftLeft {i b : Nat} (hb : b < 32) : (1#32 <<< i : Word).getLsbD b = decide (b = i) := by
  rw [BitVec.getLsbD_shiftLeft, BitVec.getLsbD_one, Bool.eq_iff_iff]
  simp
  omega

/-- `BitSet` sets its own bit and leaves every other bit as it is. -/
theorem bitGet_bitSet {ws : List Word} {i : Nat} (hi : i / 32 < ws.length) (j : Nat) :
    bitGet (bitSet ws i) j = (decide (j = i) || bitGet ws j) := by
  rw [bitGet_eq, bitGet_eq, bitSet, wordIndex, bitIndex, List.getElem?_modify]
  by_cases hk : i / 32 = j / 32
  · have hbit : j % 32 = i % 32 ↔ j = i := by omega
    rw [hk] at hi
    simp [hk, List.getElem?_eq_getElem hi, getLsbD_one_shiftLeft (Nat.mod_lt j (by decide)), hbit, Bool.or_comm]
  · have hne : j ≠ i := fun e => hk (e ▸ rfl)
    simp [hk, hne]

/-! ### The loop and the one-step words (R120, R129) -/

/-- Row by row over `h` rows of `w` pixels is one pass over the pixels in order. -/
theorem foldl_rows {α : Type} (f : α → Nat → α) (w h : Nat) (a : α) :
    (List.range h).foldl (fun a y => (List.range w).foldl (fun a x => f a (lin w x y)) a) a =
      (List.range (w * h)).foldl f a := by
  induction h with
  | zero => rfl
  | succ h ih =>
    rw [List.range_succ, List.foldl_append, ih, Nat.mul_succ, List.range_add, List.foldl_append, List.foldl_map]
    simp only [List.foldl_cons, List.foldl_nil, lin, Nat.mul_comm h w]

/-- `BitSet` for each pixel `i` below `n` with `f i`, in order. -/
def setBits (f : Nat → Bool) (ws : List Word) (n : Nat) : List Word :=
  (List.range n).foldl (fun ws i => if f i then bitSet ws i else ws) ws

theorem packLoop_eq_setBits (g : List Byte) (w h : Nat) :
    packLoop g w h = setBits (laneBit g) (List.replicate (ceilWords (w * h)) 0#32) (w * h) :=
  foldl_rows (fun ws i => if laneBit g i then bitSet ws i else ws) w h _

theorem setBits_succ (f : Nat → Bool) (ws : List Word) (n : Nat) :
    setBits f ws (n + 1) = if f n then bitSet (setBits f ws n) n else setBits f ws n := by
  simp [setBits, List.range_succ]

@[simp] theorem setBits_length (f : Nat → Bool) (ws : List Word) (n : Nat) : (setBits f ws n).length = ws.length := by
  induction n with
  | zero => rfl
  | succ n ih =>
    rw [setBits_succ]
    split
    · rw [bitSet_length, ih]
    · exact ih

/-- Each bit is set at most once and by its own pixel alone. -/
theorem bitGet_setBits (f : Nat → Bool) {ws : List Word} {n : Nat} (hn : n ≤ 32 * ws.length) (j : Nat) :
    bitGet (setBits f ws n) j = (decide (j < n) && f j || bitGet ws j) := by
  induction n with
  | zero => simp [setBits]
  | succ n ih =>
    have ih := ih (by omega)
    have hlast : decide (j < n + 1) = (decide (j = n) || decide (j < n)) := by
      rw [← Bool.decide_or, decide_eq_decide]
      omega
    rw [setBits_succ]
    split
    · next hf =>
      rw [bitGet_bitSet (by rw [setBits_length]; omega), ih, hlast]
      by_cases hj : j = n
      · simp [hj, hf]
      · simp [hj]
    · next hf =>
      rw [ih, hlast]
      by_cases hj : j = n
      · simp [hj, hf]
      · simp [hj]

/-- Settles O25: both give each pixel its packed bit and every padding bit 0, and words are determined by their bits. -/
theorem packLoopGivesWords : Obligations.PackLoopGivesWords := by
  intro grid w h hlen
  rw [packLoop_eq_setBits]
  refine words_ext (by simp) fun i hi => ?_
  rw [packWords_length] at hi
  rw [bitGet_packWords grid hi, bitGet_setBits _ (by rw [List.length_replicate]; exact ceilWords_le),
    bitGet_replicate_zero, Bool.or_false]
  by_cases hin : i < w * h
  · simp [hin]
  · simp [hin, laneBit_of_ge (g := grid) (i := i) (by omega)]

/-! ### Polarity (R128) -/

/-- An all-black grid of `n` pixels sets the lanes below `n`. -/
theorem packWord_replicate_zero_getLsbD (n k : Nat) {b : Nat} (hb : b < 32) :
    (packWord (List.replicate n 0#8) k).getLsbD b = decide (32 * k + b < n) := by
  rw [packWord_getLsbD, laneBit_replicate_zero, decide_eq_true hb, Bool.true_and]

theorem packWord_replicate_zero_full {n k : Nat} (h : 32 * k + 32 ≤ n) :
    packWord (List.replicate n 0#8) k = 0xFFFFFFFF#32 := by
  change _ = BitVec.allOnes 32
  refine BitVec.eq_of_getLsbD_eq fun b hb => ?_
  rw [packWord_replicate_zero_getLsbD n k hb, BitVec.getLsbD_allOnes, decide_eq_decide]
  omega

theorem packWord_replicate_zero_part {n k j : Nat} (h : 32 * k + j = n) :
    packWord (List.replicate n 0#8) k = BitVec.ofNat 32 (2 ^ j - 1) := by
  refine BitVec.eq_of_getLsbD_eq fun b hb => ?_
  rw [packWord_replicate_zero_getLsbD n k hb, BitVec.getLsbD_ofNat, Nat.testBit_two_pow_sub_one, decide_eq_true hb,
    Bool.true_and, decide_eq_decide]
  omega

theorem packWords_of_nonzero {g : List Byte} (h : ∀ d ∈ g, d ≠ 0#8) (n : Nat) :
    packWords g n = List.replicate n 0#32 := by
  refine words_ext (by simp) fun i hi => ?_
  rw [List.length_replicate] at hi
  rw [bitGet_packWords g hi, laneBit_of_nonzero h, bitGet_replicate_zero]

theorem unpackGrid_replicate_zero (m n : Nat) :
    unpackGrid (List.replicate m 0#32) n = List.replicate n 255#8 := by
  simp [unpackGrid, toDisplay]

/-- Settles O26: a word of an all-black grid has all its lanes set, or in the last word those below the padding; white pixels
set no lane, and a bit 0 unpacks as white. -/
theorem polarityLaw : Obligations.PolarityLaw := by
  refine fun w h => ⟨fun k hk => ?_, fun grid _ hwhite => packWords_of_nonzero hwhite _, unpackGrid_replicate_zero _ _⟩
  have hsum := padBits_add_numPixels w h
  have hpad := padBits_le w h
  rw [packWords_getElem? _ hk]
  split
  · rw [packWord_replicate_zero_full (by omega)]
  · rw [packWord_replicate_zero_part (j := 32 - padBits w h) (by omega)]

/-! ### The outcomes of `PACK` (R121, R122) -/

/-- A cell of a range that was read holds what the range has there. -/
theorem Memory.getElem?_of_readRange {α : Type} {m : Memory α} {n i : Nat} {vs : List α} (h : m.readRange 0 n = .ok vs)
    (hi : i < n) : vs[i]? = m.read i := by
  obtain ⟨-, hcells⟩ := (m.readRange_ok_iff 0 n vs).1 h
  rw [← hcells i hi, Nat.zero_add]

theorem Memory.length_of_readRange {α : Type} {m : Memory α} {n : Nat} {vs : List α} (h : m.readRange 0 n = .ok vs) :
    vs.length = n := ((m.readRange_ok_iff 0 n vs).1 h).1

/-- `WMEM` after a successful `PACK`: the packed words below `NW`, and what it held from there on. -/
theorem packed_wmem_read (s : State) (w h : Word) (grid : List Byte) (k : Nat) :
    (packed s w h grid).wmem.read k = if k < numWords w h then some (packWord grid k) else s.wmem.read k := by
  simp only [packed, setStatus_wmem, Memory.read_writeRange, packWords_length, Nat.zero_le, true_and, Nat.zero_add,
    Nat.sub_zero]
  exact if_ctx_congr Iff.rfl (fun hk => packWords_getElem? grid hk) fun _ => rfl

section Outcomes

variable {s t : State} {w h : Word} (hw : s.width = some w) (hh : s.height = some h)

include hw hh

/-- Too many words are `CAPACITY` whether or not there are too many pixels as well. -/
theorem exec_pack_capacity (hcap : exceeds (numPixels w h) s.caps.pixelCap = true ∨
    exceeds (numWords w h) s.caps.wordCap = true) : exec .pack s = .next (setStatus .capacity s) := by
  rw [exec_pack_eq hw hh]
  obtain hpixels | hwords := hcap
  · rw [if_pos hpixels]
    rfl
  · rw [if_pos hwords]
    exact ite_self _

theorem exec_pack_unsetPixel {i : Nat} (hpixels : exceeds (numPixels w h) s.caps.pixelCap = false)
    (hwords : exceeds (numWords w h) s.caps.wordCap = false) (hi : i < numPixels w h)
    (hunset : s.gmem.FirstUnset 0 i) : exec .pack s = .fault (.unsetData .gmem i) := by
  rw [exec_pack_eq hw hh, hpixels, if_neg Bool.false_ne_true, hwords, if_neg Bool.false_ne_true,
    withCells_of_firstUnset hunset (by omega)]

/-- The ways `PACK` answers a next state, for the dimensions the registers hold. -/
theorem exec_pack_next (hexec : exec .pack s = .next t) :
    ((exceeds (numPixels w h) s.caps.pixelCap = true ∨ exceeds (numWords w h) s.caps.wordCap = true) ∧
      t = setStatus .capacity s) ∨
    (exceeds (numPixels w h) s.caps.pixelCap = false ∧ exceeds (numWords w h) s.caps.wordCap = false ∧
      ∃ grid, s.gmem.readRange 0 (numPixels w h) = .ok grid ∧ t = packed s w h grid) := by
  obtain ⟨w', h', hw', hh', hcases⟩ := execPack_next hexec
  cases hw.symm.trans hw'
  cases hh.symm.trans hh'
  exact hcases

/-- `PACK` that ended with `OK` packed a grid that fits. -/
theorem exec_pack_ok (hexec : exec .pack s = .next t) (hok : t.status = 0#32) :
    exceeds (numPixels w h) s.caps.pixelCap = false ∧ exceeds (numWords w h) s.caps.wordCap = false ∧
      ∃ grid, s.gmem.readRange 0 (numPixels w h) = .ok grid ∧ t = packed s w h grid := by
  obtain ⟨-, rfl⟩ | hpacked := exec_pack_next hw hh hexec
  · exact absurd (statusWord_eq_zero_iff.1 hok) nofun
  · exact hpacked

end Outcomes

/-- Settles O22: the operands in their order, then the checks in R154's order, one lemma per outcome. -/
theorem packOutcomes : Obligations.PackOutcomes := by
  refine fun s => ⟨withOperand_of_unset, fun hw hh => ?_, fun w h hw hh =>
    ⟨fun hpixels => exec_pack_capacity hw hh (.inl (exceeds_eq_true_iff.2 hpixels)),
      fun hwords => exec_pack_capacity hw hh (.inr (exceeds_eq_true_iff.2 hwords)), fun hpixels hwords => ?_⟩⟩
  · obtain ⟨w, hw⟩ := Option.ne_none_iff_exists'.1 hw
    exact (withOperand_of_eq hw).trans (withOperand_of_unset hh)
  · have hpixels := exceeds_eq_false_iff.2 hpixels
    have hwords := exceeds_eq_false_iff.2 hwords
    refine ⟨fun i => exec_pack_unsetPixel hw hh hpixels hwords, fun grid hholds => ?_⟩
    have hgrid := s.gmem.readRange_map 0 (numPixels w h) grid fun i hi => by rw [Nat.zero_add, hholds i hi]
    refine ⟨_, exec_pack_packed hw hh hpixels hwords hgrid, rfl, fun k hk => ?_, fun k hk => ?_⟩
    · refine ⟨_, (packed_wmem_read ..).trans (if_pos hk), fun b hb => ?_⟩
      rw [packWord_getLsbD, laneBit_map_range, decide_eq_true hb, Bool.true_and]
    · rw [packed_wmem_read, if_neg hk.not_gt]

/-! ### What `PACK` does not depend on (R123, R124) -/

/-- Settles O23: the checks read no word, the words written come from the grid alone, and lanes past the last pixel are
zero. -/
theorem packIgnoresOldWords : Obligations.PackIgnoresOldWords := by
  intro s t m w h hw hh hexec hok
  obtain ⟨hpixels, hwords, grid, hgrid, rfl⟩ := exec_pack_ok hw hh hexec hok
  refine ⟨_, exec_pack_packed (s := { s with wmem := m }) hw hh hpixels hwords hgrid, rfl, fun k hk => ?_⟩
  rw [packed_wmem_read, packed_wmem_read, if_pos hk, if_pos hk]
  refine ⟨rfl, fun word hword b _ hpadding => ?_⟩
  cases hword
  rw [packWord_getLsbD, laneBit_of_ge (by rwa [Memory.length_of_readRange hgrid]), Bool.and_false]

/-- Grids with the same lanes pack to the same words, each state keeping its own `GMEM`. -/
theorem packed_with_gmem (s : State) (m : Memory Byte) (w h : Word) {grid grid' : List Byte}
    (hlanes : ∀ i, laneBit grid' i = laneBit grid i) :
    packed { s with gmem := m } w h grid' = { packed s w h grid with gmem := m } := by
  rw [packed, packWords_congr hlanes]
  rfl

/-- Pixels that are zero alike have the same lanes. -/
theorem laneBit_of_same_zeros {m m' : Memory Byte} {n : Nat} {grid grid' : List Byte}
    (hagree : ∀ i < n, ∃ c d, m.read i = some c ∧ m'.read i = some d ∧ (c = 0#8 ↔ d = 0#8))
    (hgrid : m.readRange 0 n = .ok grid) (hgrid' : m'.readRange 0 n = .ok grid') (i : Nat) :
    laneBit grid' i = laneBit grid i := by
  by_cases hi : i < n
  · obtain ⟨c, d, hc, hd, hzero⟩ := hagree i hi
    rw [Bool.eq_iff_iff, laneBit_eq_true_iff, laneBit_eq_true_iff, Memory.getElem?_of_readRange hgrid hi,
      Memory.getElem?_of_readRange hgrid' hi, hc, hd, Option.some_inj, Option.some_inj, hzero]
  · have hlen := Memory.length_of_readRange hgrid
    have hlen' := Memory.length_of_readRange hgrid'
    rw [laneBit_of_ge (by omega), laneBit_of_ge (by omega)]

/-- Settles O24: the checks read no pixel, and the words depend on the lanes alone. -/
theorem packSeesOnlyZeroAndNonZero : Obligations.PackSeesOnlyZeroAndNonZero := by
  intro s t m w h hw hh hagree hexec
  obtain ⟨hcap, rfl⟩ | ⟨hpixels, hwords, grid, hgrid, rfl⟩ := exec_pack_next hw hh hexec
  · exact exec_pack_capacity (s := { s with gmem := m }) hw hh hcap
  · obtain ⟨grid', hgrid'⟩ := Memory.exists_readRange (m := m) (n := numPixels w h) fun i hi => by
      obtain ⟨_, d, -, hd, -⟩ := hagree i hi
      exact Option.isSome_iff_exists.2 ⟨d, hd⟩
    rw [exec_pack_packed (s := { s with gmem := m }) hw hh hpixels hwords hgrid',
      packed_with_gmem s m w h (laneBit_of_same_zeros hagree hgrid hgrid')]

/-! ### The round trip (R127) -/

/-- Unpacking a packed grid maps each value to its display value. -/
theorem unpackGrid_packWords_numWords {w h : Word} {grid : List Byte} (hlen : grid.length = numPixels w h) :
    unpackGrid (packWords grid (numWords w h)) (numPixels w h) = grid.map fun d => if d = 0#8 then 0#8 else 255#8 := by
  rw [numWords, ← hlen, unpackGrid_packWords]
  simp only [toDisplay_toBit]

theorem ite_zero_of_binary {d : Byte} (hd : d = 0#8 ∨ d = 255#8) : (if d = 0#8 then 0#8 else 255#8) = d := by
  obtain rfl | rfl := hd
  · rfl
  · rfl

/-- `UNPACK` after a `PACK` that succeeded reads the packed words back and succeeds. -/
theorem exec_unpack_packed {s : State} {w h : Word} (grid : List Byte) (hw : s.width = some w) (hh : s.height = some h)
    (hpixels : exceeds (numPixels w h) s.caps.pixelCap = false)
    (hwords : exceeds (numWords w h) s.caps.wordCap = false) :
    exec .unpack (packed s w h grid) =
      .next (unpacked (packed s w h grid) w h (packWords grid (numWords w h))) := by
  have hread := s.wmem.readRange_writeRange 0 (packWords grid (numWords w h))
  rw [packWords_length] at hread
  exact exec_unpack_unpacked (s := packed s w h grid) (a := BitVec.ofNat 64 (numWords w h)) hw hh rfl
    (by rw [toNat_numWords]; exact hwords) (toNat_numWords w h).ge hpixels hread

/-- `GMEM` after `PACK` and `UNPACK`: each pixel below `W*H` as 0 or 255, and what it held from there on. -/
theorem unpacked_packed_gmem_read {s : State} {w h : Word} {grid : List Byte}
    (hgrid : s.gmem.readRange 0 (numPixels w h) = .ok grid) (i : Nat) :
    (unpacked (packed s w h grid) w h (packWords grid (numWords w h))).gmem.read i =
      if i < numPixels w h then (s.gmem.read i).map fun d => if d = 0#8 then 0#8 else 255#8 else s.gmem.read i := by
  rw [unpacked_gmem_read]
  refine if_ctx_congr Iff.rfl (fun hi => ?_) fun _ => rfl
  have hin : i < grid.length := by rwa [Memory.length_of_readRange hgrid]
  rw [bitGet_packWords grid (div_lt_numWords hi), laneBit_of_lt hin, toDisplay_toBit,
    ← Memory.getElem?_of_readRange hgrid hi, List.getElem?_eq_getElem hin, Option.map_some]

/-- Settles O27: each packed bit of the words is the bit of its pixel, so unpacking them gives each pixel's display value; as
operations, `UNPACK` reads the words that `PACK` wrote. -/
theorem packUnpackRoundTrip : Obligations.PackUnpackRoundTrip := by
  refine ⟨fun w h grid hlen => ⟨unpackGrid_packWords_numWords hlen, fun hbinary => ?_⟩,
    fun s t w h hw hh hexec hok => ?_⟩
  · rw [unpackGrid_packWords_numWords hlen]
    exact (List.map_congr_left (g := id) fun d hd => ite_zero_of_binary (hbinary d hd)).trans (List.map_id grid)
  · obtain ⟨hpixels, hwords, grid, hgrid, rfl⟩ := exec_pack_ok hw hh hexec hok
    refine ⟨_, exec_unpack_packed grid hw hh hpixels hwords, rfl, fun i hi => ?_, fun hbinary i => ?_⟩
    · have hin : i < grid.length := by rwa [Memory.length_of_readRange hgrid]
      have hd : s.gmem.read i = some grid[i] := by
        rw [← Memory.getElem?_of_readRange hgrid hi, List.getElem?_eq_getElem hin]
      exact ⟨_, hd, by rw [unpacked_packed_gmem_read hgrid, if_pos hi, hd, Option.map_some]⟩
    · rw [unpacked_packed_gmem_read hgrid]
      split
      · next hi =>
        obtain hd | hd := hbinary i hi
        · rw [hd]; rfl
        · rw [hd]; rfl
      · rfl

end Sys2Proof.Machine
end

section
/-! PROOFS. The stream sequences of 43_stream.md: the host's lines, what `DECODE.STREAM` and `ENCODE.STREAM` end with, and the
round trip of the two. -/

namespace Sys2Proof.Machine

open Sys2Proof

/-! ### The host's branch (R71, R148) -/

/-- Settles O42: the branch changes the host's position alone, by `STATUS.CODE`. -/
theorem hostBranchesOnStatus : Obligations.HostBranchesOnStatus := fun s l h => by
  rw [step_of_nextForm h]
  by_cases hok : s.status.extractLsb' 0 3 = 0#3
  · rw [if_pos hok]
    exact congrArg _ (if_pos hok)
  · rw [if_neg hok]
    exact congrArg _ (if_neg hok)

theorem codeField_statusWord (c : StatusCode) : codeField (statusWord c) = codeBits c := by
  cases c <;> rfl

theorem codeBits_eq_zero_iff {c : StatusCode} : codeBits c = 0#3 ↔ c = .ok := by
  cases c <;> decide

theorem step_bneStatus_of_ok {s : State} {l : Nat} (h : nextForm s = some (.bneStatus l))
    (hok : s.status = statusWord .ok) : step s = .next (advance s) := by
  rw [hostBranchesOnStatus s l h, if_pos (by rw [hok]; rfl)]
  rfl

theorem step_bneStatus_of_error {s : State} {l : Nat} {c : StatusCode} (h : nextForm s = some (.bneStatus l))
    (hstatus : s.status = statusWord c) (hc : c ≠ .ok) : step s = .next { s with hostPos := l } := by
  have hcode : s.status.extractLsb' 0 3 ≠ 0#3 := by
    rw [hstatus]
    exact fun h0 => hc (codeBits_eq_zero_iff.1 ((codeField_statusWord c).symm.trans h0))
  rw [hostBranchesOnStatus s l h, if_neg hcode]

/-! ### Lines and runs of a host program -/

/-- The host runs the program `p` and its next line is line `n`. -/
structure AtLine (p : List HostForm) (n : Nat) (s : State) : Prop where
  prog : s.hostProg = p
  pos : s.hostPos = n

theorem AtLine.form {p : List HostForm} {n : Nat} {s : State} (h : AtLine p n s) : nextForm s = p[n]? :=
  nextForm_eq h.prog h.pos

theorem AtLine.advance {p : List HostForm} {n : Nat} {s : State} (h : AtLine p n s) : AtLine p (n + 1) (advance s) :=
  ⟨h.prog, congrArg (· + 1) h.pos⟩

/-- A run goes on from the state its first steps answer. -/
theorem run_add {m k : Nat} {s t : State} (h : Host.Core.run Sys2Proof.core m s = .next t) :
    Host.Core.run Sys2Proof.core (m + k) s = Host.Core.run Sys2Proof.core k t := by
  induction m generalizing s with
  | zero =>
    cases h
    rw [Nat.zero_add]
  | succ m ih =>
    rw [Nat.succ_add]
    cases hstep : Sys2Proof.core.step s with
    | next u =>
      rw [run_succ_of_step hstep] at h ⊢
      exact ih h
    | fault r => simp [Host.Core.run, hstep] at h
    | refused r => simp [Host.Core.run, hstep] at h

/-- `k` steps from `s` stop on no fault and no refusal and leave the host with the result `r`. -/
def EndsWith (k : Nat) (s : State) (r : HostResult) : Prop :=
  ∃ t, Host.Core.run Sys2Proof.core k s = .next t ∧ t.hostResult = some r

theorem EndsWith.of_run {m k : Nat} {s t : State} {r : HostResult}
    (h : Host.Core.run Sys2Proof.core m s = .next t) (ht : EndsWith k t r) : EndsWith (m + k) s r := by
  rwa [EndsWith, run_add h]

theorem EndsWith.of_step {k : Nat} {s t : State} {r : HostResult} (h : step s = .next t) (ht : EndsWith k t r) :
    EndsWith (k + 1) s r := by
  rwa [EndsWith, run_succ_of_step h]

theorem EndsWith.of_halt (k : Nat) {s : State} {r : HostResult} (h : nextForm s = some .halt)
    (hr : s.hostResult = some r) : EndsWith k s r :=
  ⟨s, run_of_halt k h, hr⟩

/-- An operation that reports `OK`, and the branch after it, which goes on. -/
theorem run_succeeded {p : List HostForm} {n l : Nat} {i : Instr} {s t : State} (hs : AtLine p n s)
    (hcmd : p[n]? = some (.cmd (encode i))) (hbne : p[n + 1]? = some (.bneStatus l))
    (hexec : exec i (advance s) = .next t) (ht : AtLine p (n + 1) t) (hok : t.status = statusWord .ok) :
    Host.Core.run Sys2Proof.core 2 s = .next (advance t) := by
  rw [run_succ_of_step ((stepRunsIssuedOperation s _ i (hs.form.trans hcmd) (decode_encode i)).trans hexec),
    run_succ_of_step (step_bneStatus_of_ok (ht.form.trans hbne) hok)]
  rfl

/-- An operation that reports an error: the branch after it goes to the line that surfaces the code, and the host halts. -/
theorem endsWith_failed {p : List HostForm} {n l : Nat} {i : Instr} {c : StatusCode} {s : State} (k : Nat)
    (hs : AtLine p n s) (hcmd : p[n]? = some (.cmd (encode i))) (hbne : p[n + 1]? = some (.bneStatus l))
    (hsurface : p[l]? = some .surface) (hhalt : p[l + 1]? = some .halt)
    (hexec : exec i (advance s) = .next (setStatus c (advance s))) (hc : c ≠ .ok) :
    EndsWith (k + 3) s (.failed (codeBits c)) := by
  have hissued : AtLine p (n + 1) (setStatus c (advance s)) := ⟨hs.advance.prog, hs.advance.pos⟩
  have hbranched : AtLine p l { setStatus c (advance s) with hostPos := l } := ⟨hs.prog, rfl⟩
  refine .of_step ((stepRunsIssuedOperation s _ i (hs.form.trans hcmd) (decode_encode i)).trans hexec) ?_
  refine .of_step (step_bneStatus_of_error (hissued.form.trans hbne) rfl hc) ?_
  refine .of_step (step_of_nextForm (hbranched.form.trans hsurface)) ?_
  exact .of_halt k (hbranched.advance.form.trans hhalt) (congrArg (some ∘ HostResult.failed) (codeField_statusWord c))

/-! ### The header of a stream (R80, R140) -/

/-- The three ways the parser answers. -/
theorem parseHeader_cases (bs : List Byte) :
    (bs.length < 12 ∧ parseHeader bs = .error .truncated) ∨ parseHeader bs = .error .invalidMagic ∨
      (12 ≤ bs.length ∧ ∃ w h, parseHeader bs = .ok (w, h)) := by
  by_cases hshort : bs.length < 4
  · exact .inl ⟨by omega, parseHeader_of_short hshort⟩
  obtain ⟨b0, b1, b2, b3, rest, rfl⟩ := exists_four_cons (l := bs) (by omega)
  by_cases hmagic : le32 b0 b1 b2 b3 = magic
  · by_cases hcut : rest.length < 8
    · exact .inl ⟨Nat.add_lt_add_right hcut 4, parseHeader_of_cut hmagic hcut⟩
    · obtain ⟨b4, b5, b6, b7, rest, rfl⟩ := exists_four_cons (l := rest) (by omega)
      simp only [List.length_cons] at hcut
      obtain ⟨b8, b9, b10, b11, more, rfl⟩ := exists_four_cons (l := rest) (by omega)
      exact .inr (.inr ⟨Nat.le_add_left 12 more.length, _, _,
        parseHeader_of_whole b4 b5 b6 b7 b8 b9 b10 b11 more hmagic⟩)
  · exact .inr (.inl (parseHeader_of_wrongMagic rest hmagic))

theorem parseHeader_ne_error_ok {bs : List Byte} {c : StatusCode} (h : parseHeader bs = .error c) : c ≠ .ok := by
  obtain ⟨-, hbs⟩ | hbs | ⟨-, _, _, hbs⟩ := parseHeader_cases bs
  · cases hbs.symm.trans h
    nofun
  · cases hbs.symm.trans h
    nofun
  · cases hbs.symm.trans h

theorem length_of_parseHeader {bs : List Byte} {w h : Word} (hparse : parseHeader bs = .ok (w, h)) :
    12 ≤ bs.length := by
  obtain ⟨-, hbs⟩ | hbs | ⟨hlen, -⟩ := parseHeader_cases bs
  · cases hbs.symm.trans hparse
  · cases hbs.symm.trans hparse
  · exact hlen

/-- The parser looks at the first twelve bytes alone. -/
theorem parseHeader_take (bs : List Byte) : parseHeader (bs.take 12) = parseHeader bs := by
  by_cases hshort : bs.length ≤ 12
  · rw [List.take_of_length_le hshort]
  · obtain ⟨b0, b1, b2, b3, rest, rfl⟩ := exists_four_cons (l := bs) (by omega)
    simp only [List.length_cons] at hshort
    obtain ⟨b4, b5, b6, b7, rest, rfl⟩ := exists_four_cons (l := rest) (by omega)
    simp only [List.length_cons] at hshort
    obtain ⟨b8, b9, b10, b11, more, rfl⟩ := exists_four_cons (l := rest) (by omega)
    rfl

theorem parseHeader_writeHeader_append (w h : Word) (bs : List Byte) :
    parseHeader (writeHeader w h ++ bs) = .ok (w, h) := by
  rw [← parseHeader_take, List.take_left' (writeHeader_length w h), parseHeader_writeHeader]

/-! ### `DECODE.STREAM` (R140 to R143) -/

/-- The state before `HDR.PARSE` of `DECODE.STREAM`: up to twelve bytes of the stream in `HBUF`, their number in `HDR_LEN`. -/
def headerLoaded (s : State) (bytes : List Byte) : State :=
  { advance (advance s) with
    hbuf := s.hbuf.writeRange 0 (bytes.take 12)
    hdrLen := some (BitVec.ofNat 32 (min bytes.length 12)) }

/-- The state after the host's load of the stream's words, at most `n` of them. -/
def wordsLoaded (s : State) (bytes : List Byte) (n : Nat) : State :=
  { advance s with
    wmem := s.wmem.writeRange 0 (streamWords bytes (wordsToLoad bytes n))
    wordAvail := some (BitVec.ofNat 64 (wordsToLoad bytes n)) }

theorem AtLine.headerLoaded {bytes : List Byte} {s : State} (hs : AtLine (decodeStream bytes) 0 s) :
    AtLine (decodeStream bytes) 2 (headerLoaded s bytes) :=
  ⟨hs.prog, hs.advance.advance.pos⟩

theorem run_headerLoaded {bytes : List Byte} {s : State} (hs : AtLine (decodeStream bytes) 0 s) :
    Host.Core.run Sys2Proof.core 2 s = .next (headerLoaded s bytes) := by
  have hbytes : AtLine (decodeStream bytes) 1 { advance s with hbuf := s.hbuf.writeRange 0 (bytes.take 12) } :=
    ⟨hs.prog, hs.advance.pos⟩
  rw [run_succ_of_step (step_wrHbuf hs.form (by rw [List.length_take]; omega)),
    run_succ_of_step (step_wrReg (r := .hdrLen) (d := .d32 _) hbytes.form rfl nofun)]
  rfl

/-- `HDR.PARSE` on the loaded bytes is the parser on the stream. -/
theorem exec_hdrParse_headerLoaded (s : State) (bytes : List Byte) :
    (∀ c, parseHeader bytes = .error c →
      exec .hdrParse (advance (headerLoaded s bytes)) = .next (setStatus c (advance (headerLoaded s bytes)))) ∧
    (∀ w h, parseHeader bytes = .ok (w, h) →
      exec .hdrParse (advance (headerLoaded s bytes)) = .next (parsed (advance (headerLoaded s bytes)) w h)) := by
  have hlen : (bytes.take 12).length = min (BitVec.ofNat 32 (min bytes.length 12)).toNat 12 := by
    rw [List.length_take, BitVec.toNat_ofNat]
    omega
  have hread : ∀ k < (bytes.take 12).length, (headerLoaded s bytes).hbuf.read k = (bytes.take 12)[k]? := fun k hk =>
    (Memory.read_writeRange _ _ _ _).trans (if_pos ⟨Nat.zero_le k, by omega⟩)
  have hexec := hdrParseIsParseHeader (advance (headerLoaded s bytes)) _ (bytes.take 12) rfl hlen hread
  rw [parseHeader_take] at hexec
  constructor
  · intro c hparse
    rwa [hparse] at hexec
  · intro w h hparse
    rwa [hparse] at hexec

theorem decodeStream_parseError {bytes : List Byte} {s : State} {c : StatusCode}
    (hs : AtLine (decodeStream bytes) 0 s) (hparse : parseHeader bytes = .error c) :
    EndsWith 11 s (.failed (codeBits c)) :=
  .of_run (k := 9) (run_headerLoaded hs) <|
    endsWith_failed (i := .hdrParse) 6 hs.headerLoaded rfl rfl rfl rfl
      ((exec_hdrParse_headerLoaded s bytes).1 c hparse) (parseHeader_ne_error_ok hparse)

/-- How many words the host loaded fits `WORD_AVAIL`. -/
theorem toNat_wordsToLoad (bytes : List Byte) (w h : Word) :
    (BitVec.ofNat 64 (wordsToLoad bytes (numWords w h))).toNat = wordsToLoad bytes (numWords w h) := by
  have hle : wordsToLoad bytes (numWords w h) ≤ numWords w h := Nat.min_le_right _ _
  have hlt := numWords_lt w h
  rw [BitVec.toNat_ofNat, Nat.mod_eq_of_lt (by omega)]

theorem readRange_wordsLoaded (s : State) (bytes : List Byte) (n : Nat) :
    (wordsLoaded s bytes n).wmem.readRange 0 (wordsToLoad bytes n) =
      .ok (streamWords bytes (wordsToLoad bytes n)) := by
  have hread := s.wmem.readRange_writeRange 0 (streamWords bytes (wordsToLoad bytes n))
  rwa [streamWords_length] at hread

theorem readRange_unpacked (s : State) (w h : Word) (ws : List Word) :
    (unpacked s w h ws).gmem.readRange 0 (numPixels w h) = .ok (unpackGrid ws (numPixels w h)) := by
  have hread := s.gmem.readRange_writeRange 0 (unpackGrid ws (numPixels w h))
  rwa [unpackGrid_length] at hread

/-- The host hands over the grid that `GMEM` holds. -/
theorem step_handGrid {s : State} {w h : Word} {px : List Byte} (hform : nextForm s = some .handGrid)
    (hw : s.width = some w) (hh : s.height = some h) (hpixels : exceeds (numPixels w h) s.caps.pixelCap = false)
    (hgrid : s.gmem.readRange 0 (numPixels w h) = .ok px) :
    step s = .next { advance s with hostResult := some (.grid w h px) } := by
  have hfits : ∀ c, s.caps.pixelCap = some c → 0 + numPixels w h ≤ c := by
    rw [Nat.zero_add]
    exact exceeds_eq_false_iff.1 hpixels
  have hhand : step s = handGrid s := step_of_nextForm hform
  rw [hhand, handGrid, withOperand_of_eq hw, withOperand_of_eq hh, withAccess_of_le (b := .gmem) hfits,
    withCells_of_read hgrid]

section Decode

/- The header gave the dimensions, and the host's next line loads the words. -/
variable {bytes : List Byte} {w h : Word} {s : State} (hs : AtLine (decodeStream bytes) 4 s)
  (hcount : s.wordCount = some (BitVec.ofNat 64 (numWords w h)))

include hs

theorem AtLine.wordsLoaded (n : Nat) : AtLine (decodeStream bytes) 5 (wordsLoaded s bytes n) :=
  ⟨hs.prog, hs.advance.pos⟩

include hcount

theorem step_loadWords : step s =
    if exceeds (wordsToLoad bytes (numWords w h)) s.caps.wordCap then
      .next { s with hostResult := some (.failed (codeBits .capacity)), hostPos := 10 }
    else .next (wordsLoaded s bytes (numWords w h)) := by
  have hload : step s = loadWords bytes 10 s := step_of_nextForm hs.form
  rw [hload, loadWords, withOperand_of_eq hcount, toNat_numWords]
  rfl

theorem decodeStream_wordCapacity (hcap : exceeds (wordsToLoad bytes (numWords w h)) s.caps.wordCap = true) :
    EndsWith 7 s (.failed 3#3) := by
  have hstop : AtLine (decodeStream bytes) 10
      { s with hostResult := some (.failed (codeBits .capacity)), hostPos := 10 } := ⟨hs.prog, rfl⟩
  exact .of_step ((step_loadWords hs hcount).trans (if_pos hcap)) (.of_halt 6 hstop.form rfl)

variable (hcap : exceeds (wordsToLoad bytes (numWords w h)) s.caps.wordCap = false)

include hcap

theorem step_wordsLoaded : step s = .next (wordsLoaded s bytes (numWords w h)) :=
  (step_loadWords hs hcount).trans (if_neg (Bool.eq_false_iff.1 hcap))

variable (hw : s.width = some w) (hh : s.height = some h)

include hw hh

theorem decodeStream_truncated (hshort : (bytes.length - 12) / 4 < numWords w h) : EndsWith 7 s (.failed 2#3) := by
  refine .of_step (step_wordsLoaded hs hcount hcap) ?_
  refine endsWith_failed (i := .unpack) 3 (hs.wordsLoaded _) rfl rfl rfl rfl ?_ (c := .truncated) nofun
  refine exec_unpack_truncated (s := advance (wordsLoaded s bytes (numWords w h))) hw hh rfl ?_ ?_
  · rwa [toNat_wordsToLoad]
  · rw [toNat_wordsToLoad, wordsToLoad]
    omega

variable (henough : numWords w h ≤ (bytes.length - 12) / 4)

include henough

theorem decodeStream_pixelCapacity (hpixels : exceeds (numPixels w h) s.caps.pixelCap = true) :
    EndsWith 7 s (.failed 3#3) := by
  refine .of_step (step_wordsLoaded hs hcount hcap) ?_
  refine endsWith_failed (i := .unpack) 3 (hs.wordsLoaded _) rfl rfl rfl rfl ?_ (c := .capacity) nofun
  refine exec_unpack_capacity (s := advance (wordsLoaded s bytes (numWords w h))) hw hh rfl ?_ ?_ hpixels
  · rwa [toNat_wordsToLoad]
  · rw [toNat_wordsToLoad, wordsToLoad, Nat.min_eq_right henough]

theorem decodeStream_grid (hpixels : exceeds (numPixels w h) s.caps.pixelCap = false) :
    EndsWith 7 s (.grid w h (unpackGrid (streamWords bytes (numWords w h)) (numPixels w h))) := by
  have hload : wordsToLoad bytes (numWords w h) = numWords w h := Nat.min_eq_right henough
  have hwords := readRange_wordsLoaded s bytes (numWords w h)
  rw [hload] at hwords
  have hexec := exec_unpack_unpacked (s := advance (wordsLoaded s bytes (numWords w h))) hw hh rfl
    (by rwa [toNat_wordsToLoad]) (by rw [toNat_wordsToLoad, hload]) hpixels hwords
  have hunpacked : AtLine (decodeStream bytes) 6 (unpacked (advance (wordsLoaded s bytes (numWords w h))) w h
      (streamWords bytes (numWords w h))) := ⟨hs.prog, hs.advance.advance.pos⟩
  have hgrid := readRange_unpacked (advance (wordsLoaded s bytes (numWords w h))) w h (streamWords bytes (numWords w h))
  refine .of_step (step_wordsLoaded hs hcount hcap) ?_
  refine .of_run (k := 4) (run_succeeded (hs.wordsLoaded _) rfl rfl hexec hunpacked rfl) ?_
  exact .of_step (step_handGrid hunpacked.advance.form hw hh hpixels hgrid) (.of_halt 3 hunpacked.advance.advance.form rfl)

end Decode

/-- The header's lines, where the parser accepts the header: the host goes on with the load of the words. -/
theorem run_parsed {bytes : List Byte} {s : State} {w h : Word} (hs : AtLine (decodeStream bytes) 0 s)
    (hparse : parseHeader bytes = .ok (w, h)) :
    Host.Core.run Sys2Proof.core 4 s = .next (advance (parsed (advance (headerLoaded s bytes)) w h)) :=
  (run_add (run_headerLoaded hs)).trans <|
    run_succeeded hs.headerLoaded rfl rfl ((exec_hdrParse_headerLoaded s bytes).2 w h hparse)
      ⟨hs.prog, hs.headerLoaded.advance.pos⟩ rfl

/-- Settles O47: the header's lines, then one lemma per outcome, in the order of the checks. -/
theorem decodeStreamResult : Obligations.DecodeStreamResult := by
  intro s bytes hprog hpos
  have hs : AtLine (decodeStream bytes) 0 s := ⟨hprog, hpos⟩
  change EndsWith 11 s _
  cases hparse : parseHeader bytes with
  | error c => exact decodeStream_parseError hs hparse
  | ok dims =>
    obtain ⟨w, h⟩ := dims
    refine .of_run (k := 7) (run_parsed hs hparse) ?_
    have hparsed : AtLine (decodeStream bytes) 4 (advance (parsed (advance (headerLoaded s bytes)) w h)) :=
      ⟨hs.prog, hs.headerLoaded.advance.advance.pos⟩
    dsimp only
    split
    · next hcap => exact decodeStream_wordCapacity hparsed rfl hcap
    · next hcap =>
      have hcap := Bool.eq_false_of_not_eq_true hcap
      split
      · next hshort => exact decodeStream_truncated hparsed rfl hcap rfl rfl hshort
      · next henough =>
        have henough := Nat.le_of_not_lt henough
        split
        · next hpixels => exact decodeStream_pixelCapacity hparsed rfl hcap rfl rfl henough hpixels
        · next hpixels =>
          exact decodeStream_grid hparsed rfl hcap rfl rfl henough (Bool.eq_false_of_not_eq_true hpixels)

/-- Settles O48: with unbounded capacities only the branch of too few words is left of O47's failures. -/
theorem truncatedExactlyWhenShort : Obligations.TruncatedExactlyWhenShort := by
  intro s bytes w h hcaps hprog hpos hparse
  obtain ⟨t, hrun, hresult⟩ := decodeStreamResult s bytes hprog hpos
  have hlen := length_of_parseHeader hparse
  refine ⟨t, hrun, ?_⟩
  simp only [hresult, hparse, hcaps, Config.unbounded, exceeds_none, Bool.false_eq_true, if_false]
  by_cases hshort : (bytes.length - 12) / 4 < numWords w h
  · rw [if_pos hshort]
    exact iff_of_true rfl (by omega)
  · rw [if_neg hshort]
    exact iff_of_false nofun (by omega)

/-! ### `ENCODE.STREAM` (R144, R145) -/

/-- The state before `PACK` of `ENCODE.STREAM`. -/
def gridLoaded (s : State) (w h : Word) (grid : List Byte) : State :=
  { advance (advance (advance s)) with
    width := some w
    height := some h
    gmem := s.gmem.writeRange 0 grid }

/-- The header and the packed words as bytes: the stream of a grid. -/
def encodedBytes (w h : Word) (grid : List Byte) : List Byte :=
  writeHeader w h ++ (packWords grid (numWords w h)).flatMap le32Bytes

theorem length_flatMap_le32Bytes (words : List Word) : (words.flatMap le32Bytes).length = 4 * words.length := by
  simp [List.length_flatMap, Nat.mul_comm]

theorem encodedBytes_length (w h : Word) (grid : List Byte) :
    (encodedBytes w h grid).length = 12 + 4 * numWords w h := by
  rw [encodedBytes, List.length_append, writeHeader_length, length_flatMap_le32Bytes, packWords_length]

theorem readRange_packed (s : State) (w h : Word) (grid : List Byte) :
    (packed s w h grid).wmem.readRange 0 (numWords w h) = .ok (packWords grid (numWords w h)) := by
  have hread := s.wmem.readRange_writeRange 0 (packWords grid (numWords w h))
  rwa [packWords_length] at hread

theorem readRange_written (s : State) (w h : Word) :
    (written s w h).hbuf.readRange 0 12 = .ok (writeHeader w h) := s.hbuf.readRange_writeRange 0 (writeHeader w h)

/-- The host emits the header that `HBUF` holds and the words that `WMEM` holds. -/
theorem step_emitStream {s : State} {header : List Byte} {n : DWord} {ws : List Word}
    (hform : nextForm s = some .emitStream) (hheader : s.hbuf.readRange 0 12 = .ok header)
    (hcount : s.wordCount = some n) (hfits : exceeds n.toNat s.caps.wordCap = false)
    (hwords : s.wmem.readRange 0 n.toNat = .ok ws) :
    step s = .next { advance s with hostResult := some (.stream (header ++ ws.flatMap le32Bytes)) } := by
  have hfits : ∀ c, s.caps.wordCap = some c → 0 + n.toNat ≤ c := by
    rw [Nat.zero_add]
    exact exceeds_eq_false_iff.1 hfits
  have hemit : step s = emitStream s := step_of_nextForm hform
  rw [hemit, emitStream, Config.headerBytes, withCells_of_read hheader, withOperand_of_eq hcount,
    withAccess_of_le (b := .wmem) hfits, withCells_of_read hwords]

/-- After `PACK`: the header written and emitted with the words. -/
theorem endsWith_emitted {s : State} {w h : Word} {grid : List Byte} {ws : List Word}
    (hs : AtLine (encodeStream w h grid) 5 s) (hw : s.width = some w) (hh : s.height = some h)
    (hcount : s.wordCount = some (BitVec.ofNat 64 (numWords w h)))
    (hfits : exceeds (numWords w h) s.caps.wordCap = false) (hwords : s.wmem.readRange 0 (numWords w h) = .ok ws) :
    EndsWith 5 s (.stream (writeHeader w h ++ ws.flatMap le32Bytes)) := by
  have hwritten : AtLine (encodeStream w h grid) 6 (written (advance s) w h) := ⟨hs.prog, hs.advance.pos⟩
  have hissue : step s = .next (written (advance s) w h) :=
    (stepRunsIssuedOperation s _ .hdrWrite hs.form rfl).trans (exec_hdrWrite_eq hw hh)
  have hemit := step_emitStream hwritten.form (readRange_written (advance s) w h) hcount
    (by rwa [toNat_numWords]) (ws := ws) (by rwa [toNat_numWords])
  exact .of_step hissue (.of_step hemit (.of_halt 3 hwritten.advance.form rfl))

section Encode

variable {w h : Word} {grid : List Byte} {s : State} (hs : AtLine (encodeStream w h grid) 0 s)

include hs

theorem AtLine.gridLoaded : AtLine (encodeStream w h grid) 3 (gridLoaded s w h grid) :=
  ⟨hs.prog, hs.advance.advance.advance.pos⟩

variable (hlen : grid.length = numPixels w h) (hpixels : exceeds (numPixels w h) s.caps.pixelCap = false)

include hlen hpixels

theorem run_gridLoaded : Host.Core.run Sys2Proof.core 3 s = .next (gridLoaded s w h grid) := by
  have hwidth : AtLine (encodeStream w h grid) 1 { advance s with width := some w } := ⟨hs.prog, hs.advance.pos⟩
  have hheight : AtLine (encodeStream w h grid) 2
      { advance (advance s) with width := some w, height := some h } := ⟨hs.prog, hs.advance.advance.pos⟩
  have hfits : ∀ c, s.caps.pixelCap = some c → 0 + grid.length ≤ c := by
    rw [Nat.zero_add, hlen]
    exact exceeds_eq_false_iff.1 hpixels
  exact (run_succ_of_step (step_wrReg (r := .width) (d := .d32 w) hs.form rfl nofun)).trans <|
    (run_succ_of_step (step_wrReg (r := .height) (d := .d32 h) hwidth.form rfl nofun)).trans <|
    run_succ_of_step (step_wrGmem hheight.form hfits)

theorem encodeStream_wordCapacity (hwords : exceeds (numWords w h) s.caps.wordCap = true) :
    EndsWith 10 s (.failed 3#3) :=
  .of_run (k := 7) (run_gridLoaded hs hlen hpixels) <|
    endsWith_failed (i := .pack) 4 hs.gridLoaded rfl rfl rfl rfl (c := .capacity)
      (exec_pack_capacity (s := advance (gridLoaded s w h grid)) rfl rfl (.inr hwords)) nofun

theorem encodeStream_stream (hwords : exceeds (numWords w h) s.caps.wordCap = false) :
    EndsWith 10 s (.stream (encodedBytes w h grid)) := by
  have hgrid := s.gmem.readRange_writeRange 0 grid
  rw [hlen] at hgrid
  have hexec := exec_pack_packed (s := advance (gridLoaded s w h grid)) rfl rfl hpixels hwords hgrid
  have hpacked : AtLine (encodeStream w h grid) 4 (packed (advance (gridLoaded s w h grid)) w h grid) :=
    ⟨hs.prog, hs.gridLoaded.advance.pos⟩
  refine .of_run (k := 7) (run_gridLoaded hs hlen hpixels) ?_
  refine .of_run (k := 5) (run_succeeded hs.gridLoaded rfl rfl hexec hpacked rfl) ?_
  exact endsWith_emitted hpacked.advance rfl rfl rfl hwords (readRange_packed (advance (gridLoaded s w h grid)) w h grid)

end Encode

/-- Settles O49: whether the words fit decides between the two ends. -/
theorem encodeStreamResult : Obligations.EncodeStreamResult := by
  intro s w h grid hprog hpos hlen hpixels
  have hs : AtLine (encodeStream w h grid) 0 s := ⟨hprog, hpos⟩
  cases hwords : exceeds (numWords w h) s.caps.wordCap with
  | true =>
    obtain ⟨t, hrun, hresult⟩ := encodeStream_wordCapacity hs hlen hpixels hwords
    exact ⟨t, hrun, fun _ => hresult, nofun⟩
  | false =>
    obtain ⟨t, hrun, hresult⟩ := encodeStream_stream hs hlen hpixels hwords
    exact ⟨t, hrun, nofun, fun _ => ⟨_, hresult, rfl, encodedBytes_length w h grid⟩⟩

/-! ### The round trip (R146) -/

/-- The words' bytes from word `k` on are the bytes of the words from `k` on. -/
theorem drop_flatMap_le32Bytes (words : List Word) (k : Nat) :
    (words.flatMap le32Bytes).drop (4 * k) = (words.drop k).flatMap le32Bytes := by
  induction k generalizing words with
  | zero => rfl
  | succ k ih =>
    cases words with
    | nil => rw [List.flatMap_nil, List.drop_nil, List.drop_nil, List.flatMap_nil]
    | cons v words =>
      rw [List.flatMap_cons, show 4 * (k + 1) = (le32Bytes v).length + 4 * k by rw [le32Bytes_length]; omega,
        List.drop_length_add_append, ih, List.drop_succ_cons]

/-- Word `k` of a stream built from words is word `k` of them, whatever follows. -/
theorem streamWord_of_words {header : List Byte} {words : List Word} (tail : List Byte) {k : Nat}
    (hheader : header.length = 12) (hk : k < words.length) :
    streamWord (header ++ words.flatMap le32Bytes ++ tail) k = words[k] := by
  have hdrop : (header ++ words.flatMap le32Bytes ++ tail).drop (12 + 4 * k) =
      le32Bytes words[k] ++ ((words.drop (k + 1)).flatMap le32Bytes ++ tail) := by
    have hbytes : 4 * k ≤ (words.flatMap le32Bytes).length := by
      rw [length_flatMap_le32Bytes]
      omega
    rw [← hheader, List.append_assoc, List.drop_length_add_append, List.drop_append_of_le_length hbytes,
      drop_flatMap_le32Bytes, List.drop_eq_getElem_cons hk, List.flatMap_cons, List.append_assoc]
  rw [streamWord, hdrop]
  exact le32_of_bytes words[k]

theorem streamWords_encodedBytes (w h : Word) (grid tail : List Byte) :
    streamWords (encodedBytes w h grid ++ tail) (numWords w h) = packWords grid (numWords w h) := by
  refine List.ext_getElem (by rw [streamWords_length, packWords_length]) fun k _ hk => ?_
  simp only [streamWords, List.getElem_map, List.getElem_range]
  exact streamWord_of_words tail (writeHeader_length w h) hk

/-- No step changes the capacities, so no run does. -/
theorem run_caps {k : Nat} {s t : State} (h : Host.Core.run Sys2Proof.core k s = .next t) : t.caps = s.caps :=
  run_induction (P := fun u => u.caps = s.caps)
    (fun u v hu hstep => (nothingTakesAValueAway u v hstep).1.trans hu) h rfl

/-- The header of an encoded stream gives the dimensions back, all the words are there, and unpacking them gives a grid over 0
and 255 back; O47 with no capacity to exceed. -/
theorem decodeStream_encodedBytes {s : State} {w h : Word} {grid tail : List Byte} (hcaps : s.caps = Config.unbounded)
    (hprog : s.hostProg = decodeStream (encodedBytes w h grid ++ tail)) (hpos : s.hostPos = 0)
    (hlen : grid.length = numPixels w h) (hbinary : ∀ d ∈ grid, d = 0#8 ∨ d = 255#8) :
    EndsWith 11 s (.grid w h grid) := by
  obtain ⟨u, hrun, hresult⟩ := decodeStreamResult s _ hprog hpos
  have hparse : parseHeader (encodedBytes w h grid ++ tail) = .ok (w, h) := by
    rw [encodedBytes, List.append_assoc, parseHeader_writeHeader_append]
  have henough : ¬ ((encodedBytes w h grid ++ tail).length - 12) / 4 < numWords w h := by
    rw [List.length_append, encodedBytes_length]
    omega
  obtain ⟨-, hunpack⟩ := packUnpackRoundTrip.1 w h grid hlen
  refine ⟨u, hrun, ?_⟩
  simp only [hresult, hparse, hcaps, Config.unbounded, exceeds_none, Bool.false_eq_true, if_false, henough,
    streamWords_encodedBytes, hunpack hbinary]

/-- Settles O50: the encoder ends with the stream (O49) and leaves the capacities, and decoding that stream gives the grid. -/
theorem streamRoundTrip : Obligations.StreamRoundTrip := by
  intro s w h grid tail hcaps hprog hpos hlen hbinary
  have hs : AtLine (encodeStream w h grid) 0 s := ⟨hprog, hpos⟩
  obtain ⟨t, hencode, hstream⟩ := encodeStream_stream hs hlen (by rw [hcaps]; rfl) (by rw [hcaps]; rfl)
  obtain ⟨u, hdecode, hgrid⟩ := decodeStream_encodedBytes
    (s := { t with hostProg := decodeStream (encodedBytes w h grid ++ tail), hostPos := 0 })
    ((run_caps hencode).trans hcaps) rfl rfl hlen hbinary
  exact ⟨t, _, u, hencode, hstream, hdecode, hgrid⟩

end Sys2Proof.Machine
end

section
/-! PROOFS. The stops and errors of 60_exceptions.md: what an operation can fault on, which codes it leaves and when, and which
lines of the host's program are refused. -/

namespace Sys2Proof.Machine

open Sys2Proof

/-! ### Outcomes that are no refusal (R158) -/

/-- The outcome is a next state, or a fault that `P` allows; never a refusal. -/
inductive StopsOnlyBy (P : Fault → Prop) : Result → Prop where
  | next (t : State) : StopsOnlyBy P (.next t)
  | fault {f : Fault} (h : P f) : StopsOnlyBy P (.fault f)

theorem StopsOnlyBy.ne_refused {P : Fault → Prop} {r : Result} (h : StopsOnlyBy P r) (q : Refusal) : r ≠ .refused q := by
  cases h with
  | next _ => nofun
  | fault _ => nofun

theorem StopsOnlyBy.of_fault {P : Fault → Prop} {r : Result} {f : Fault} (h : StopsOnlyBy P r) (hf : r = .fault f) :
    P f := by
  cases h with
  | next _ => cases hf
  | fault hP => cases hf; exact hP

section Operations

variable {P : Fault → Prop}

theorem stopsOnlyBy_ite {c : Prop} [Decidable c] {r r' : Result} (h : StopsOnlyBy P r) (h' : StopsOnlyBy P r') :
    StopsOnlyBy P (if c then r else r') := by
  split
  · exact h
  · exact h'

theorem stopsOnlyBy_withOperand {n : Nat} {r : Reg} {v : Option (BitVec n)} {k : BitVec n → Result}
    (hP : v = none → P (.unsetOperand r)) (hk : ∀ x, StopsOnlyBy P (k x)) : StopsOnlyBy P (withOperand r v k) := by
  cases v with
  | none => exact .fault (hP rfl)
  | some x => exact hk x

theorem stopsOnlyBy_withCell {α : Type} {b : Buffer} {m : Memory α} {a : Nat} {k : α → Result}
    (hP : m.read a = none → P (.unsetData b a)) (hk : ∀ v, StopsOnlyBy P (k v)) : StopsOnlyBy P (withCell b m a k) := by
  cases hread : m.read a with
  | none => rw [withCell_of_unset hread]; exact .fault (hP hread)
  | some v => rw [withCell_of_read hread]; exact hk v

theorem stopsOnlyBy_withCells {α : Type} {b : Buffer} {m : Memory α} {a n : Nat} {k : List α → Result}
    (hP : ∀ i, m.read i = none → P (.unsetData b i)) (hk : ∀ vs, StopsOnlyBy P (k vs)) :
    StopsOnlyBy P (withCells b m a n k) := by
  cases hrange : m.readRange a n with
  | error i =>
    obtain ⟨hle, hlt, hfirst⟩ := (m.readRange_error_iff a n i).1 hrange
    rw [withCells_of_firstUnset ⟨hle, hfirst⟩ hlt]
    exact .fault (hP i hfirst.1)
  | ok vs => rw [withCells_of_read hrange]; exact hk vs

theorem stopsOnlyBy_withField {s : State} {k : Nat} {f : Word → Result}
    (hP : ∀ i, s.hbuf.read i = none → P (.unsetData .hbuf i)) (hf : ∀ v, StopsOnlyBy P (f v)) :
    StopsOnlyBy P (withField s k f) :=
  stopsOnlyBy_withCell (hP _) fun _ => stopsOnlyBy_withCell (hP _) fun _ =>
    stopsOnlyBy_withCell (hP _) fun _ => stopsOnlyBy_withCell (hP _) fun _ => hf _

end Operations

/-! ### What an operation faults on (R158) -/

/-- The fault names a register that the operation reads, or a cell of the buffer it reads, that holds no value. -/
def NamesUnsetOperand (i : Instr) (s : State) (f : Fault) : Prop :=
  (∃ r, f = .unsetOperand r ∧ readsReg i r = true ∧ RegUnset s r) ∨
  (∃ b k, f = .unsetData b k ∧ readsBuffer i b = true ∧ CellUnset s b k)

theorem namesUnsetOperand_reg (i : Instr) (s : State) (r : Reg) (hreads : readsReg i r = true) (hunset : RegUnset s r) :
    NamesUnsetOperand i s (.unsetOperand r) := .inl ⟨r, rfl, hreads, hunset⟩

theorem namesUnsetOperand_cell (i : Instr) (s : State) (b : Buffer) (hreads : readsBuffer i b = true) (k : Nat)
    (hunset : CellUnset s b k) : NamesUnsetOperand i s (.unsetData b k) := .inr ⟨b, k, rfl, hreads, hunset⟩

theorem execHdrParse_stops (s : State) : StopsOnlyBy (NamesUnsetOperand .hdrParse s) (execHdrParse s) :=
  have hcell : ∀ k, s.hbuf.read k = none → NamesUnsetOperand .hdrParse s (.unsetData .hbuf k) :=
    namesUnsetOperand_cell .hdrParse s .hbuf rfl
  stopsOnlyBy_withOperand (namesUnsetOperand_reg _ s .hdrLen rfl) fun _ =>
    stopsOnlyBy_ite (.next _) <| stopsOnlyBy_withField hcell fun _ =>
      stopsOnlyBy_ite (.next _) <| stopsOnlyBy_ite (.next _) <|
        stopsOnlyBy_withField hcell fun _ => stopsOnlyBy_withField hcell fun _ => .next _

theorem execHdrWrite_stops (s : State) : StopsOnlyBy (NamesUnsetOperand .hdrWrite s) (execHdrWrite s) :=
  stopsOnlyBy_withOperand (namesUnsetOperand_reg _ s .width rfl) fun _ =>
    stopsOnlyBy_withOperand (namesUnsetOperand_reg _ s .height rfl) fun _ => .next _

theorem execUnpack_stops (s : State) : StopsOnlyBy (NamesUnsetOperand .unpack s) (execUnpack s) :=
  stopsOnlyBy_withOperand (namesUnsetOperand_reg _ s .width rfl) fun _ =>
    stopsOnlyBy_withOperand (namesUnsetOperand_reg _ s .height rfl) fun _ =>
      stopsOnlyBy_withOperand (namesUnsetOperand_reg _ s .wordAvail rfl) fun _ =>
        stopsOnlyBy_ite (.next _) <| stopsOnlyBy_ite (.next _) <| stopsOnlyBy_ite (.next _) <|
          stopsOnlyBy_withCells (namesUnsetOperand_cell _ s .wmem rfl) fun _ => .next _

theorem execPack_stops (s : State) : StopsOnlyBy (NamesUnsetOperand .pack s) (execPack s) :=
  stopsOnlyBy_withOperand (namesUnsetOperand_reg _ s .width rfl) fun _ =>
    stopsOnlyBy_withOperand (namesUnsetOperand_reg _ s .height rfl) fun _ =>
      stopsOnlyBy_ite (.next _) <| stopsOnlyBy_ite (.next _) <|
        stopsOnlyBy_withCells (namesUnsetOperand_cell _ s .gmem rfl) fun _ => .next _

theorem exec_stops (i : Instr) (s : State) : StopsOnlyBy (NamesUnsetOperand i s) (exec i s) :=
  match i with
  | .hdrParse => execHdrParse_stops s
  | .hdrWrite => execHdrWrite_stops s
  | .unpack => execUnpack_stops s
  | .pack => execPack_stops s

/-- Settles O28: each operation is built of reads that stop on an unset cell alone, and of ends that stop on nothing. -/
theorem execStopsOnlyOnUnsetCells : Obligations.ExecStopsOnlyOnUnsetCells := fun i s =>
  ⟨(exec_stops i s).ne_refused, fun _ => (exec_stops i s).of_fault⟩

/-! ### The codes an operation leaves (R151, R152, R156) -/

theorem statusWord_mem {c : StatusCode} (hc : c ≠ .none) : statusWord c ∈ [0#32, 1#32, 2#32, 3#32, 4#32] := by
  cases c with
  | ok => decide
  | invalidMagic => decide
  | truncated => decide
  | capacity => decide
  | badCommand => decide
  | none => exact absurd rfl hc

/-- An operation ends with `OK`, or with an error that is its only effect. -/
theorem exec_ok_or_error {i : Instr} {s t : State} (h : exec i s = .next t) :
    t.status = statusWord .ok ∨ ∃ c, c ≠ .none ∧ t = setStatus c s := by
  obtain ⟨c, -, hc, ht⟩ | ⟨-, w, ht, -, -, -, -, rfl⟩ | ⟨-, w, ht, -, -, rfl⟩ |
    ⟨-, w, ht, a, ws, -, -, -, -, -, -, -, rfl⟩ | ⟨-, w, ht, grid, -, -, -, -, -, rfl⟩ := exec_next h
  · exact .inr ⟨c, hc, ht⟩
  · exact .inl rfl
  · exact .inl rfl
  · exact .inl rfl
  · exact .inl rfl

/-- Settles O30: a success has code 0, and an error is a change of `STATUS` alone. -/
theorem errorsChangeOnlyStatus : Obligations.ErrorsChangeOnlyStatus := fun i s t h => by
  obtain hok | ⟨c, hc, rfl⟩ := exec_ok_or_error h
  · rw [hok]
    exact ⟨statusWord_mem nofun, fun hne => absurd rfl hne⟩
  · exact ⟨statusWord_mem hc, fun _ => rfl⟩

theorem exceeds_wordCap_of_unbounded {s : State} (h : s.caps = Config.unbounded) (n : Nat) :
    exceeds n s.caps.wordCap = false := by rw [h]; rfl

theorem exceeds_pixelCap_of_unbounded {s : State} (h : s.caps = Config.unbounded) (n : Nat) :
    exceeds n s.caps.pixelCap = false := by rw [h]; rfl

/-- Without bounds, the checks against a capacity never fire, so the codes left are those of the format. -/
theorem exec_status_of_unbounded {i : Instr} {s t : State} (hcaps : s.caps = Config.unbounded) (h : exec i s = .next t) :
    t.status = statusWord .ok ∨ t.status = statusWord .invalidMagic ∨ t.status = statusWord .truncated := by
  have hwords := exceeds_wordCap_of_unbounded hcaps
  have hpixels := exceeds_pixelCap_of_unbounded hcaps
  cases i with
  | hdrParse =>
    obtain ⟨-, -, ⟨-, rfl⟩ | ⟨-, -, -, ⟨-, rfl⟩ | ⟨-, -, rfl⟩ | ⟨-, -, w, ht, -, -, rfl⟩⟩⟩ := execHdrParse_next h
    · exact .inr (.inr rfl)
    · exact .inr (.inl rfl)
    · exact .inr (.inr rfl)
    · exact .inl rfl
  | hdrWrite =>
    obtain ⟨w, ht, -, -, rfl⟩ := execHdrWrite_next h
    exact .inl rfl
  | unpack =>
    obtain ⟨w, ht, a, -, -, -, ⟨hover, -⟩ | ⟨-, -, rfl⟩ | ⟨-, -, hover, -⟩ | ⟨-, -, -, ws, -, rfl⟩⟩ := execUnpack_next h
    · exact absurd ((hwords _).symm.trans hover) nofun
    · exact .inr (.inr rfl)
    · exact absurd ((hpixels _).symm.trans hover) nofun
    · exact .inl rfl
  | pack =>
    obtain ⟨w, ht, -, -, ⟨hover | hover, -⟩ | ⟨-, -, grid, -, rfl⟩⟩ := execPack_next h
    · exact absurd ((hpixels _).symm.trans hover) nofun
    · exact absurd ((hwords _).symm.trans hover) nofun
    · exact .inl rfl

/-- Settles O36: the codes left without bounds are 0, 1 and 2. -/
theorem unboundedNeverReportsCapacity : Obligations.UnboundedNeverReportsCapacity := fun i s t hcaps h => by
  obtain hs | hs | hs := exec_status_of_unbounded hcaps h
  · rw [hs]; decide
  · rw [hs]; decide
  · rw [hs]; decide

/-! ### No error is sticky (R157) -/

/-- No operation reads `STATUS`, and each one overwrites it, whatever word it holds. -/
theorem exec_with_status (i : Instr) (s : State) (v : Word) : exec i { s with status := v } = exec i s := by
  cases i with
  | hdrParse => rfl
  | hdrWrite => rfl
  | unpack => rfl
  | pack => rfl

/-- Settles O34: an operation overwrites the old code, and `STATUS` is read-only to the host (O35). -/
theorem statusIsNotSticky : Obligations.StatusIsNotSticky :=
  ⟨exec_with_status, fun s t f hf hcmd hreset h => (hostNeverWritesReadOnlyRegisters s t f hf hcmd hreset h).1⟩

/-! ### What is refused (R35, R159) -/

/-- The outcome is a refusal. -/
def Refuses (r : Result) : Prop := ∃ q, r = .refused q

theorem refuses_refused (q : Refusal) : Refuses (.refused q) := ⟨q, rfl⟩

theorem StopsOnlyBy.not_refuses {P : Fault → Prop} {r : Result} (h : StopsOnlyBy P r) : ¬ Refuses r :=
  fun ⟨q, hq⟩ => h.ne_refused q hq

/-- An outcome that is no refusal, beside the check of a well-formed line. -/
theorem refuses_iff_of_stops {r : Result} (h : StopsOnlyBy (fun _ => True) r) : Refuses r ↔ true = false :=
  iff_of_false h.not_refuses nofun

theorem issue_not_refuses (c : Word) (s : State) : ¬ Refuses (issue c s) := by
  rw [issue_eq]
  split
  · exact (StopsOnlyBy.next (P := fun _ => True) _).not_refuses
  · exact (exec_stops _ s).not_refuses

/-- The host's write of a register other than `CMD` looks at nothing but the width of the value. -/
theorem writeReg_refuses_iff {r : Reg} (hr : r ≠ .cmd) (d : Datum) (s : State) :
    Refuses (writeReg r d s) ↔ datumBits d ≠ regBits r := by
  cases r with
  | cmd => exact absurd rfl hr
  | status => cases d <;> simp [writeReg, Refuses, datumBits, regBits]
  | width => cases d <;> simp [writeReg, Refuses, datumBits, regBits]
  | height => cases d <;> simp [writeReg, Refuses, datumBits, regBits]
  | hdrLen => cases d <;> simp [writeReg, Refuses, datumBits, regBits]
  | wordAvail => cases d <;> simp [writeReg, Refuses, datumBits, regBits]
  | wordCount => cases d <;> simp [writeReg, Refuses, datumBits, regBits]

theorem hostWriteReg_refuses_iff (n : Nat) (d : Datum) (s : State) (caps : Config.Caps) :
    Refuses (hostWriteReg n d s) ↔ (HostForm.wrReg n d).wf caps = false := by
  unfold hostWriteReg HostForm.wf
  cases hn : regOfNum n with
  | none => simp [hn, refuses_refused]
  | some r =>
    by_cases hr : r = .cmd
    · subst hr
      cases d with
      | d8 _ => simp [hn, refuses_refused, datumBits, regBits]
      | d32 c => simp [hn, issue_not_refuses, datumBits, regBits]
      | d64 _ => simp [hn, refuses_refused, datumBits, regBits]
    · simpa [hn] using writeReg_refuses_iff hr d s

theorem readReg_stops {r : Reg} {s : State} {k : Datum → Result} (hk : ∀ d, StopsOnlyBy (fun _ => True) (k d)) :
    StopsOnlyBy (fun _ => True) (readReg r s k) := by
  cases r with
  | cmd => exact hk _
  | status => exact hk _
  | width => exact stopsOnlyBy_withOperand (fun _ => trivial) fun _ => hk _
  | height => exact stopsOnlyBy_withOperand (fun _ => trivial) fun _ => hk _
  | hdrLen => exact stopsOnlyBy_withOperand (fun _ => trivial) fun _ => hk _
  | wordAvail => exact stopsOnlyBy_withOperand (fun _ => trivial) fun _ => hk _
  | wordCount => exact stopsOnlyBy_withOperand (fun _ => trivial) fun _ => hk _

theorem hostReadReg_refuses_iff (n : Nat) (s : State) :
    Refuses (hostReadReg n s) ↔ (regOfNum n).isSome = false := by
  unfold hostReadReg
  cases regOfNum n with
  | none => simp [refuses_refused]
  | some r => exact refuses_iff_of_stops (readReg_stops fun _ => .next _)

/-- An access to a buffer is refused where it is outside, if nothing inside it is. -/
theorem withAccess_refuses_iff {P : Fault → Prop} {b : Buffer} {k n : Nat} {s : State} {r : Result}
    (h : StopsOnlyBy P r) : Refuses (withAccess b k n s r) ↔ accessOk b s.caps k n = false := by
  simp [Refuses, withAccess_refused_iff, h.ne_refused]

theorem readCell_refuses_iff {α : Type} {b : Buffer} {m : Memory α} {k : Nat} {s : State} {f : α → Datum} :
    Refuses (withAccess b k 1 s (withCell b m k fun v => logRead s (f v))) ↔ accessOk b s.caps k 1 = false :=
  withAccess_refuses_iff (stopsOnlyBy_withCell (P := fun _ => True) (fun _ => trivial) fun _ => .next _)

theorem loadWords_stops (bytes : List Byte) (stop : Nat) (s : State) :
    StopsOnlyBy (fun _ => True) (loadWords bytes stop s) :=
  stopsOnlyBy_withOperand (fun _ => trivial) fun _ => stopsOnlyBy_ite (.next _) (.next _)

theorem runForm_refuses_iff {f : HostForm} {s : State} (hgrid : f ≠ .handGrid) (hstream : f ≠ .emitStream) :
    Refuses (runForm f s) ↔ f.wf s.caps = false := by
  cases f with
  | wrReg n d => exact hostWriteReg_refuses_iff n d (advance s) s.caps
  | rdReg n => exact hostReadReg_refuses_iff n (advance s)
  | wrHbuf k bs => exact withAccess_refuses_iff (P := fun _ => True) (.next _)
  | wrWmem k ws => exact withAccess_refuses_iff (P := fun _ => True) (.next _)
  | wrGmem k ps => exact withAccess_refuses_iff (P := fun _ => True) (.next _)
  | rdHbuf k => exact readCell_refuses_iff (s := advance s)
  | rdWmem k => exact readCell_refuses_iff (s := advance s)
  | rdGmem k => exact readCell_refuses_iff (s := advance s)
  | bneStatus l => exact refuses_iff_of_stops (.next _)
  | halt => exact refuses_iff_of_stops (.next _)
  | reset => exact refuses_iff_of_stops (.next _)
  | loadWords bytes stop => exact refuses_iff_of_stops (loadWords_stops bytes stop s)
  | handGrid => exact absurd rfl hgrid
  | emitStream => exact absurd rfl hstream
  | surface => exact refuses_iff_of_stops (.next _)

/-- Settles O41: a step is its line, and a line checks its register number, its width and its capacity as `HostForm.wf` does. -/
theorem refusedExactlyWhenIllFormed : Obligations.RefusedExactlyWhenIllFormed := fun _ _ hf hgrid hstream => by
  rw [step_of_nextForm hf]
  exact runForm_refuses_iff hgrid hstream

end Sys2Proof.Machine
end

section
/-! PROOFS. Reset and initialisation of 70_reset_and_hazards.md: what holds no value after reset and after the reset input, what
the operations do then, and that an operation whose operands were written answers a next state. -/

namespace Sys2Proof.Machine

open Sys2Proof

/-! ### Reset and the reset input (R170, R172) -/

theorem regUnset_resetWith (caps : Config.Caps) {r : Reg} (hcmd : r ≠ .cmd) (hstatus : r ≠ .status) :
    RegUnset (State.resetWith caps) r := by
  cases r with
  | cmd => exact absurd rfl hcmd
  | status => exact absurd rfl hstatus
  | width => rfl
  | height => rfl
  | hdrLen => rfl
  | wordAvail => rfl
  | wordCount => rfl

theorem cellUnset_resetWith (caps : Config.Caps) (b : Buffer) (k : Nat) : CellUnset (State.resetWith caps) b k := by
  cases b with
  | hbuf => rfl
  | wmem => rfl
  | gmem => rfl

/-- Settles O1: the reset state field by field. -/
theorem resetLeavesNoValue : Obligations.ResetLeavesNoValue := fun caps =>
  ⟨rfl, rfl, fun _ => regUnset_resetWith caps, cellUnset_resetWith caps, rfl, rfl⟩

/-- The reset input leaves no value that the reset state lacks: the two states differ in the host's fields alone. -/
theorem resetBlock_keepsValues_resetWith (s : State) : (resetBlock s).KeepsValues (State.resetWith s.caps) :=
  { State.KeepsValues.refl (State.resetWith s.caps) with }

/-- Settles O43: the line's effect is `resetBlock`, where no cell holds a value that holds none after reset. -/
theorem resetInputClearsTheBlock : Obligations.ResetInputClearsTheBlock := fun s hline =>
  have hkeeps := resetBlock_keepsValues_resetWith (advance s)
  ⟨resetBlock (advance s), step_of_nextForm hline, rfl, rfl,
    fun r hcmd hstatus => hkeeps.regUnset r (regUnset_resetWith s.caps hcmd hstatus),
    fun b k => hkeeps.cellUnset b k (cellUnset_resetWith s.caps b k)⟩

/-! ### The operations right after reset (R171) -/

/-- Settles O3: the first outcome of each operation, on an unset register, and `HDR.PARSE` of a header that is too short. -/
theorem operationsAfterReset : Obligations.OperationsAfterReset := by
  intro caps
  obtain ⟨hparse, -⟩ := hdrParseOutcomes (State.resetWith caps)
  obtain ⟨hwrite, -⟩ := hdrWriteOutcomes (State.resetWith caps)
  obtain ⟨hunpack, -⟩ := unpackOutcomes (State.resetWith caps)
  obtain ⟨hpack, -⟩ := packOutcomes (State.resetWith caps)
  exact ⟨hparse rfl, hwrite rfl, hunpack rfl, hpack rfl, fun _ => exec_hdrParse_short rfl⟩

/-! ### Operands that were written (R173) -/

/-- Four bytes that hold values are a field. -/
theorem exists_fieldIs {s : State} {k n : Nat} (hbytes : ∀ j < n, (s.hbuf.read j).isSome) (hk : k + 4 ≤ n) :
    ∃ v, FieldIs s k v := by
  have hcell : ∀ j < n, ∃ b, s.hbuf.read j = some b := fun j hj => Option.isSome_iff_exists.1 (hbytes j hj)
  obtain ⟨b0, h0⟩ := hcell k (by omega)
  obtain ⟨b1, h1⟩ := hcell (k + 1) (by omega)
  obtain ⟨b2, h2⟩ := hcell (k + 2) (by omega)
  obtain ⟨b3, h3⟩ := hcell (k + 3) (by omega)
  exact ⟨_, b0, b1, b2, b3, h0, h1, h2, h3, rfl⟩

/-- `HDR.PARSE` reads the magic only from `HDR_LEN` 4 on and the dimensions only from 12 on, so those bytes hold values. -/
theorem exec_hdrParse_answers {s : State} {len : Word} (hlen : s.hdrLen = some len)
    (hbytes : ∀ k < min len.toNat 12, (s.hbuf.read k).isSome) : ∃ t, exec .hdrParse s = .next t := by
  by_cases h4 : len.toNat < 4
  · exact ⟨_, exec_hdrParse_short hlen h4⟩
  obtain ⟨m, hm⟩ := exists_fieldIs (k := 0) hbytes (by omega)
  by_cases hmagic : m = magic
  · subst hmagic
    by_cases h12 : len.toNat < 12
    · exact ⟨_, exec_hdrParse_cut hlen (by omega) h12 hm⟩
    obtain ⟨w, hw⟩ := exists_fieldIs (k := 4) hbytes (by omega)
    obtain ⟨h, hh⟩ := exists_fieldIs (k := 8) hbytes (by omega)
    exact ⟨_, exec_hdrParse_parsed hlen (headerLength_of_le (by omega)) hm hw hh⟩
  · exact ⟨_, exec_hdrParse_wrongMagic hlen (by omega) hm hmagic⟩

theorem exec_hdrWrite_answers {s : State} (hw : s.width.isSome) (hh : s.height.isSome) :
    ∃ t, exec .hdrWrite s = .next t := by
  obtain ⟨w, hw⟩ := Option.isSome_iff_exists.1 hw
  obtain ⟨h, hh⟩ := Option.isSome_iff_exists.1 hh
  exact ⟨_, exec_hdrWrite_eq hw hh⟩

/-- `UNPACK` reads words only where `WORD_AVAIL` reaches `NW`, and then they hold values. -/
theorem exec_unpack_answers {s : State} {w h : Word} {a : DWord} (hw : s.width = some w) (hh : s.height = some h)
    (ha : s.wordAvail = some a) (hwords : numWords w h ≤ a.toNat → ∀ k < numWords w h, (s.wmem.read k).isSome) :
    ∃ t, exec .unpack s = .next t := by
  cases hcap : exceeds a.toNat s.caps.wordCap with
  | true => exact ⟨_, exec_unpack_badCommand hw hh ha hcap⟩
  | false =>
    by_cases hshort : a.toNat < numWords w h
    · exact ⟨_, exec_unpack_truncated hw hh ha hcap hshort⟩
    have henough : numWords w h ≤ a.toNat := not_lt.1 hshort
    cases hpixels : exceeds (numPixels w h) s.caps.pixelCap with
    | true => exact ⟨_, exec_unpack_capacity hw hh ha hcap henough hpixels⟩
    | false =>
      obtain ⟨ws, hws⟩ := Memory.exists_readRange (hwords henough)
      exact ⟨_, exec_unpack_unpacked hw hh ha hcap henough hpixels hws⟩

/-- `PACK` reads pixels only where pixels and words both fit, and the pixels hold values. -/
theorem exec_pack_answers {s : State} {w h : Word} (hw : s.width = some w) (hh : s.height = some h)
    (hpixels : ∀ i < numPixels w h, (s.gmem.read i).isSome) : ∃ t, exec .pack s = .next t := by
  cases hpcap : exceeds (numPixels w h) s.caps.pixelCap with
  | true => exact ⟨_, exec_pack_capacity hw hh (.inl hpcap)⟩
  | false =>
    cases hwcap : exceeds (numWords w h) s.caps.wordCap with
    | true => exact ⟨_, exec_pack_capacity hw hh (.inr hwcap)⟩
    | false =>
      obtain ⟨grid, hgrid⟩ := Memory.exists_readRange hpixels
      exact ⟨_, exec_pack_packed hw hh hpcap hwcap hgrid⟩

/-- Settles O29: each operation reads cells only where its checks passed, and every check that fails answers a next state. -/
theorem writtenOperandsNeverFault : Obligations.WrittenOperandsNeverFault := fun _ =>
  ⟨fun _ => exec_hdrParse_answers, exec_hdrWrite_answers, fun _ _ _ => exec_unpack_answers,
    fun _ _ => exec_pack_answers⟩

end Sys2Proof.Machine
end
